-- ==== Sys2Proof/Word.lean ====
section
/-! DEFINITION. The word and byte types (00_scope.md R7: WORD_WIDTH = 16; 20_memory.md R45: a byte is 8 bits).
`+`, `-`, `&&&`, `|||` and `~~~` on `BitVec 16` wrap modulo 2^16, as 00_scope.md R9 says. -/

namespace Sys2Proof

/-- A Word, "a 16-bit unsigned value; the sole unit of storage and computation" (00_scope.md R13). -/
abbrev Word := BitVec 16

/-- A byte as the input and output collaborators pass it (00_scope.md R6). -/
abbrev Byte := BitVec 8

end Sys2Proof
end

