-- ==== Sys2Proof/Config.lean ====
section
/-! DEFINITION. What is fixed for one machine (00_scope.md R7): the device addresses, the named parameters "that the model
takes as an argument", and the one free value, the answer of a poll. The parameters stand in the state as plain data
(`State.cfg`, which no step changes), so every statement about every state holds for every value of them: log 19. -/

namespace Sys2Proof

/-- KBSR_ADDR (00_scope.md R7, 20_memory.md R42). -/
def Config.kbsrAddr : Word := 0xFE00

/-- KBDR_ADDR (00_scope.md R7, 20_memory.md R42). -/
def Config.kbdrAddr : Word := 0xFE02

/-- MEM_WORDS (00_scope.md R7). -/
def Config.memWords : Nat := 65536

/-- EOF_POLICY: what GETC and IN do at the end of input (20_memory.md R45, 92_eei_decisions.md D14). -/
inductive EofPolicy
  /-- `stuck`: the hold is never lifted. -/
  | stuck
  /-- `value 0xFFFF`: `InByte()` returns the marker EOF, which GETC and IN turn into R0 = 0xFFFF. -/
  | valueFFFF
deriving DecidableEq, Repr

/-- STRING_READ: how PUTS and PUTSP read their string (20_memory.md R47, 92_eei_decisions.md D10). -/
inductive StringRead
  /-- `raw`: storage reads that never poll. -/
  | raw
  /-- `arbitered`: reads through `MemRead`, which poll at 0xFE00. -/
  | arbitered
deriving DecidableEq, Repr

/-- The named parameters of 00_scope.md R7 (POLL apart, which the state's poll fields and `Config.pollDraw` give). -/
structure Params where
  /-- PC_START. -/
  pcStart : Word
  /-- GPR_RESET. -/
  gprReset : Word
  /-- COND_RESET. -/
  condReset : BitVec 3
  /-- KBSR_READY_VALUE. -/
  kbsrReady : Word
  /-- HALT_NOTICE. -/
  haltNotice : List Byte
  /-- IN_PROMPT. -/
  inPrompt : List Byte
  /-- EOF_POLICY. -/
  eofPolicy : EofPolicy
  /-- STRING_READ. -/
  stringRead : StringRead
deriving DecidableEq, Repr

/-- Whether the bytes `p` occur in a row in a byte string. -/
def containsBytes (p : List Byte) : List Byte → Bool
  | [] => p.isPrefixOf []
  | b :: rest => p.isPrefixOf (b :: rest) || containsBytes p rest

/-- What the spec asks of the parameters: COND_RESET is one of the three flags (10_state.md R18), KBSR_READY_VALUE has
bit 15 set (20_memory.md R43), HALT_NOTICE contains the bytes "HALT" (43_trap.md R105). -/
def Params.wf (p : Params) : Bool :=
  (p.condReset == 0b100#3 || p.condReset == 0b010#3 || p.condReset == 0b001#3)
    && p.kbsrReady.getLsbD 15
    && containsBytes [0x48, 0x41, 0x4C, 0x54] p.haltNotice

/-- FREE VALUE (log 7). The answer of the n-th poll that no answer fixed by the host covers: "a draw the block does not
control" (20_memory.md R44, 93_implementation_defined.md U8). It has no body: nothing constrains it. -/
opaque Config.pollDraw : Nat → Bool

/-- The weak-fairness assumption of 70_reset_and_hazards.md R143 about the draws: some later draw answers true. The model
assumes it nowhere; a claim that needs it names it. -/
def Config.FairPoll : Prop := ∀ n, ∃ m, n ≤ m ∧ Config.pollDraw m = true

end Sys2Proof
end

