-- ==== Sys2Proof/Machine/Defaults.lean ====
section
/-! DEFINITION. The default values of the named parameters (00_scope.md R7). -/

namespace Sys2Proof.Machine

/-- "HALT\n", 48 41 4C 54 0A (00_scope.md R7, 92_eei_decisions.md D12): log 10. -/
def defaultHaltNotice : List Byte := [0x48, 0x41, 0x4C, 0x54, 0x0A]

/-- "Enter a character: " (00_scope.md R7, 92_eei_decisions.md D13): log 10. -/
def defaultInPrompt : List Byte :=
  [0x45, 0x6E, 0x74, 0x65, 0x72, 0x20, 0x61, 0x20, 0x63, 0x68, 0x61, 0x72, 0x61, 0x63, 0x74, 0x65, 0x72, 0x3A, 0x20]

/-- The default of every parameter (00_scope.md R7): logs 2, 3, 4, 5, 8, 10, 11. -/
def defaultParams : Params where
  pcStart := 0x3000
  gprReset := 0x0000
  condReset := 0b010
  kbsrReady := 0x8000
  haltNotice := defaultHaltNotice
  inPrompt := defaultInPrompt
  eofPolicy := .stuck
  stringRead := .raw

end Sys2Proof.Machine
end

