-- ==== Sys2Proof/Machine/Memory.lean ====
section
/-! DEFINITION. The memory array (10_state.md R26, 20_memory.md R41) as a list of (word address, word) pairs in one
canonical form: addresses strictly rising and below 65536, no entry equal to what an unlisted address reads as. The
hardware's smallest addressable unit is the 16-bit Word, and "there are no byte addresses" (R41), so a cell is a word
and not a byte: log 20. -/

namespace Sys2Proof.Machine

/-- Memory as its listed cells. -/
abbrev Memory := List (Nat × Word)

/-- What a word that nothing has written reads as: "zero if never written" (10_state.md R26). -/
def Memory.unlisted : Word := 0

/-- The word at an address. -/
def Memory.read : Memory → Nat → Word
  | [], _ => Memory.unlisted
  | (k, v) :: rest, a => if k = a then v else Memory.read rest a

/-- A cell put in front of a list, unless it holds what an unlisted address reads as. -/
def Memory.consCell (a : Nat) (v : Word) (m : Memory) : Memory :=
  if v = Memory.unlisted then m else (a, v) :: m

/-- Memory with the word at one address replaced; it keeps the canonical form. -/
def Memory.write : Memory → Nat → Word → Memory
  | [], a, v => Memory.consCell a v []
  | (k, u) :: rest, a, v =>
    if a < k then Memory.consCell a v ((k, u) :: rest)
    else if a = k then Memory.consCell a v rest
    else (k, u) :: Memory.write rest a v

/-- The canonical form of a list whose addresses start at `lo`. -/
def Memory.wfFrom : Nat → Memory → Bool
  | _, [] => true
  | lo, (k, v) :: rest =>
    decide (lo ≤ k) && decide (k < Config.memWords) && (v != Memory.unlisted) && Memory.wfFrom (k + 1) rest

/-- The canonical form: equal memories are equal lists. -/
def Memory.wf (m : Memory) : Bool := Memory.wfFrom 0 m

end Sys2Proof.Machine
end

