-- ==== Sys2Proof/Machine/State.lean ====
section
/-! DEFINITION. The machine's state (10_state.md), the reasons a step can have no next state, and the state at reset
(10_state.md R32). -/

namespace Sys2Proof.Machine

/-- The general registers R0-R7 (10_state.md R15). -/
structure RegFile where
  r0 : Word
  r1 : Word
  r2 : Word
  r3 : Word
  r4 : Word
  r5 : Word
  r6 : Word
  r7 : Word
deriving DecidableEq, Repr

/-- `run_state` (10_state.md R24). -/
inductive RunState
  | running
  | waitGetc
  | waitIn
  | halted
  | aborted
deriving DecidableEq, Repr

/-- The causes of an abort with their recorded values (60_exceptions.md R112). -/
inductive AbortCause
  /-- Code 1, raised by RTI and RES. -/
  | illegalOpcode (op : BitVec 4)
  /-- Code 2, raised by TRAP with a vector outside 0x20-0x25. -/
  | badTrapVector (v : BitVec 8)
  /-- Code 3, raised by the host. -/
  | externalAbort
deriving DecidableEq, Repr

/-- One call on the output collaborator (20_memory.md R49): `out` holds the bytes "together with the points at which it
called flush()" (10_state.md R30). -/
inductive OutEvent
  | byte (b : Byte)
  | flush
deriving DecidableEq, Repr

/-- The whole state. -/
structure State where
  /-- R0-R7 (10_state.md R15). -/
  regs : RegFile
  /-- The program counter, a word address (10_state.md R17). -/
  pc : Word
  /-- COND, one-hot: N = 0b100, Z = 0b010, P = 0b001 (10_state.md R18). -/
  cond : BitVec 3
  /-- The engine's run state (10_state.md R24). -/
  runState : RunState
  /-- The abort cause, "written only on entry to ABORTED" (10_state.md R25). -/
  abortCause : Option AbortCause
  /-- The 65536 words, KBSR and KBDR among them (10_state.md R26). -/
  mem : Memory
  /-- The bytes the input collaborator holds, head first (10_state.md R29). -/
  inQueue : List Byte
  /-- Whether no byte will follow those of `inQueue` (20_memory.md R45, "if the input has ended"): host-owned, log 11. -/
  inEnded : Bool
  /-- What the output collaborator received, oldest first (10_state.md R30). -/
  out : List OutEvent
  /-- A pending host abort and the number of enabled steps that still come before it (60_exceptions.md R115 item 3,
  R118): host-owned, log 17. -/
  hostAbort : Option Nat
  /-- The poll answers the host has fixed, head first (00_scope.md R7, POLL): host-owned, log 7. -/
  pollScript : List Bool
  /-- How many polls drew their answer from `Config.pollDraw`: the model's own counter, log 7. -/
  pollDraws : Nat
  /-- The named parameters (00_scope.md R7), which no step changes: log 19. -/
  cfg : Params
deriving DecidableEq, Repr

/-- Why a step has no next state. Each is a place where the spec says that the block has no step; all are safe: the model
stops where the hardware takes no step either, and no state is lost (the state before the step stands). -/
inductive Fault
  /-- Raised by `step` in HALTED: "In HALTED or ABORTED the block has no step" (10_state.md R28). Safe. -/
  | halted
  /-- Raised by `step` in ABORTED (10_state.md R28). Safe. -/
  | aborted
  /-- Raised by `step` in WAIT_GETC or WAIT_IN when no byte is there and the input has not ended: the block holds, and
  no step is enabled until the host supplies a byte (10_state.md R28). Safe. -/
  | waitingForInput
  /-- Raised by `step` in WAIT_GETC or WAIT_IN when the input has ended and EOF_POLICY = stuck: "the hold is never
  lifted" (20_memory.md R45). Safe. -/
  | inputEnded
  /-- Raised by PUTS and PUTSP when the walk finds no zero word: "the step never completes" (43_trap.md R102, R104;
  92_eei_decisions.md D17). Safe. -/
  | unterminatedString
deriving DecidableEq, Repr

/-- Why an instruction has no meaning in the model. -/
inductive Refusal
  /-- Raised by an arm of `exec` whose instruction has no meaning yet. Safe. No arm raises it in this model. -/
  | notModelled (mnemonic : String)
deriving DecidableEq, Repr

/-- The state the block starts in with the parameters `p` (10_state.md R32, 70_reset_and_hazards.md R129-R131). The
host-owned fields are empty: the host fills them through its own interface. -/
def State.resetWith (p : Params) : State where
  regs := ⟨p.gprReset, p.gprReset, p.gprReset, p.gprReset, p.gprReset, p.gprReset, p.gprReset, p.gprReset⟩
  pc := p.pcStart
  cond := p.condReset
  runState := .running
  abortCause := none
  mem := []
  inQueue := []
  inEnded := false
  out := []
  hostAbort := none
  pollScript := []
  pollDraws := 0
  cfg := p

/-- The state at reset with the default parameters (10_state.md R32). -/
def State.reset : State := State.resetWith defaultParams

end Sys2Proof.Machine
end

