-- ==== Sys2Proof/Syntax.lean ====
section
/-! DEFINITION. The instructions as syntax: one constructor for each row of spec/opcode_table.json. A register field is a
register, an immediate or an offset is its bit field before extension (30_encoding.md R66, R67). Don't-care bits have no
place here: the decoder ignores them (30_encoding.md R69). -/

namespace Sys2Proof

/-- The general registers (10_state.md R15). PC and COND have no register number (10_state.md R16). -/
inductive Reg
  | r0 | r1 | r2 | r3 | r4 | r5 | r6 | r7
deriving DecidableEq, Repr

/-- The instruction set: 25 rows of the opcode table (30_encoding.md R65, R72; 43_trap.md R98). -/
inductive Instr
  /-- BR (40_control.md R81). -/
  | br (nzp : BitVec 3) (offset9 : BitVec 9)
  /-- ADD, register mode (41_operate.md R85). -/
  | addReg (dr sr1 sr2 : Reg)
  /-- ADD, immediate mode (41_operate.md R85). -/
  | addImm (dr sr1 : Reg) (imm5 : BitVec 5)
  /-- LD (42_load_store.md R89). -/
  | ld (dr : Reg) (offset9 : BitVec 9)
  /-- ST (42_load_store.md R93). -/
  | st (sr : Reg) (offset9 : BitVec 9)
  /-- JSR, the long form (40_control.md R83). -/
  | jsr (offset11 : BitVec 11)
  /-- JSRR, the register form (40_control.md R83). -/
  | jsrr (baseR : Reg)
  /-- AND, register mode (41_operate.md R86). -/
  | andReg (dr sr1 sr2 : Reg)
  /-- AND, immediate mode (41_operate.md R86). -/
  | andImm (dr sr1 : Reg) (imm5 : BitVec 5)
  /-- LDR (42_load_store.md R91). -/
  | ldr (dr baseR : Reg) (offset6 : BitVec 6)
  /-- STR (42_load_store.md R95). -/
  | str (sr baseR : Reg) (offset6 : BitVec 6)
  /-- RTI, not implemented: aborts (44_unimplemented.md R108). -/
  | rti
  /-- NOT (41_operate.md R87). -/
  | notReg (dr sr : Reg)
  /-- LDI (42_load_store.md R90). -/
  | ldi (dr : Reg) (offset9 : BitVec 9)
  /-- STI (42_load_store.md R94). -/
  | sti (sr : Reg) (offset9 : BitVec 9)
  /-- JMP; RET is `jmp r7` (40_control.md R82). -/
  | jmp (baseR : Reg)
  /-- RES, the reserved opcode: aborts (44_unimplemented.md R109). -/
  | res
  /-- LEA (42_load_store.md R92). -/
  | lea (dr : Reg) (offset9 : BitVec 9)
  /-- TRAP x20 (43_trap.md R100). -/
  | trapGetc
  /-- TRAP x21 (43_trap.md R101). -/
  | trapOut
  /-- TRAP x22 (43_trap.md R102). -/
  | trapPuts
  /-- TRAP x23 (43_trap.md R103). -/
  | trapIn
  /-- TRAP x24 (43_trap.md R104). -/
  | trapPutsp
  /-- TRAP x25 (43_trap.md R105). -/
  | trapHalt
  /-- TRAP with any other vector (43_trap.md R97, R107). -/
  | trap (trapvect8 : BitVec 8)
deriving DecidableEq, Repr

end Sys2Proof
end

