-- ==== Sys2Proof/Machine/Ops.lean ====
section
/-! DEFINITION. The shared operations: the primitives of 00_scope.md R11 over the state. Entering ABORTED is one operation
(`raiseAbort`, 60_exceptions.md R111), entering a trap is one (`trapEntry`, 60_exceptions.md R116), and returning from a
trap that waited is one (`resume`, 60_exceptions.md R117). -/

namespace Sys2Proof.Machine

/-! ### Registers (10_state.md R15-R17) -/

/-- `x[i]`. -/
def RegFile.get (f : RegFile) : Reg → Word
  | .r0 => f.r0
  | .r1 => f.r1
  | .r2 => f.r2
  | .r3 => f.r3
  | .r4 => f.r4
  | .r5 => f.r5
  | .r6 => f.r6
  | .r7 => f.r7

/-- `x[i] <- v`. -/
def RegFile.set (f : RegFile) (r : Reg) (v : Word) : RegFile :=
  match r with
  | .r0 => { f with r0 := v }
  | .r1 => { f with r1 := v }
  | .r2 => { f with r2 := v }
  | .r3 => { f with r3 := v }
  | .r4 => { f with r4 := v }
  | .r5 => { f with r5 := v }
  | .r6 => { f with r6 := v }
  | .r7 => { f with r7 := v }

/-- Read a general register. -/
def State.reg (s : State) (r : Reg) : Word := s.regs.get r

/-- Write a general register; it "does not change COND" (10_state.md R15). -/
def State.setReg (r : Reg) (v : Word) (s : State) : State := { s with regs := s.regs.set r v }

/-- `pc <- target`. -/
def State.setPc (v : Word) (s : State) : State := { s with pc := v }

/-- Write the run state. -/
def State.setRun (r : RunState) (s : State) : State := { s with runState := r }

/-! ### Memory without a device effect (20_memory.md R46, R47) -/

/-- `RawRead(addr)`: "returns mem[addr] with no device side effect" (20_memory.md R47). -/
def rawRead (a : Word) (s : State) : Word := s.mem.read a.toNat

/-- `MemWrite(addr, 16, v)`: "sets mem[addr] <- v for every address" (20_memory.md R46). -/
def memWrite (a v : Word) (s : State) : State := { s with mem := s.mem.write a.toNat v }

/-! ### The input collaborator (20_memory.md R44, R45) -/

/-- `zext_8` (00_scope.md R10). -/
def zext8 (b : Byte) : Word := b.setWidth 16

/-- The answer of `Poll()`: true only when a byte is pending, and then the host's fixed answer or a free draw (20_memory.md
R44, 92_eei_decisions.md D9): log 7. -/
def pollAnswer (s : State) : Bool :=
  match s.inQueue with
  | [] => false
  | _ :: _ =>
    match s.pollScript with
    | answer :: _ => answer
    | [] => Config.pollDraw s.pollDraws

/-- What a poll uses up: one fixed answer, or one draw. -/
def advancePoll (s : State) : State :=
  match s.pollScript with
  | _ :: rest => { s with pollScript := rest }
  | [] => { s with pollDraws := s.pollDraws + 1 }

/-- What `InByte()` gives (20_memory.md R45). -/
inductive InByte
  /-- The head of `in_queue`, which is removed. -/
  | byte (b : Byte)
  /-- The marker EOF: the input has ended and EOF_POLICY = value 0xFFFF. -/
  | eof
  /-- The caller holds until the collaborator supplies a byte. -/
  | hold
  /-- The input has ended and EOF_POLICY = stuck: the hold is never lifted. -/
  | ended
deriving DecidableEq, Repr

/-- `InByte()` (20_memory.md R45, 92_eei_decisions.md D14): log 11. -/
def inByte (s : State) : InByte × State :=
  match s.inQueue with
  | b :: rest => (.byte b, { s with inQueue := rest })
  | [] =>
    if s.inEnded then
      match s.cfg.eofPolicy with
      | .stuck => (.ended, s)
      | .valueFFFF => (.eof, s)
    else (.hold, s)

/-! ### The arbitered read (20_memory.md R43) -/

/-- The poll that a read of KBSR makes: on a true answer KBSR becomes KBSR_READY_VALUE and KBDR the next byte,
zero-extended; on a false one KBSR is cleared. A true answer implies that a byte is there (R44), so the last branch of the
inner match is never taken. -/
def pollKbsr (s : State) : State :=
  if pollAnswer s then
    match inByte (memWrite Config.kbsrAddr s.cfg.kbsrReady (advancePoll s)) with
    | (.byte b, s1) => memWrite Config.kbdrAddr (zext8 b) s1
    | (_, s1) => s1
  else memWrite Config.kbsrAddr 0 (advancePoll s)

/-- `MemRead(addr, 16)`: "Only a read of exactly 0xFE00 polls" (20_memory.md R43). -/
def memRead (a : Word) (s : State) : Word × State :=
  if a = Config.kbsrAddr then (rawRead a (pollKbsr s), pollKbsr s) else (rawRead a s, s)

/-! ### The output collaborator (20_memory.md R49) -/

/-- `OutByte(b)`. -/
def outByte (b : Byte) (s : State) : State := { s with out := s.out ++ [.byte b] }

/-- `OutByte` for each byte of a string, in order. -/
def outBytes (bs : List Byte) (s : State) : State := { s with out := s.out ++ bs.map .byte }

/-- `OutFlush()`. -/
def outFlush (s : State) : State := { s with out := s.out ++ [.flush] }

/-- The bytes of a list of calls, without the flush points: the observation of 92_eei_decisions.md D15. -/
def bytesOf : List OutEvent → List Byte
  | [] => []
  | .byte b :: rest => b :: bytesOf rest
  | .flush :: rest => bytesOf rest

/-- The low byte of a word, `w[7:0]`. -/
def lowByte (w : Word) : Byte := w.extractLsb' 0 8

/-- The high byte of a word, `w[15:8]`. -/
def highByte (w : Word) : Byte := w.extractLsb' 8 8

/-! ### Ends of a run, and traps (60_exceptions.md) -/

/-- `raise Abort(c)` (60_exceptions.md R111): no state is saved, no handler runs, nothing is rolled back. -/
def raiseAbort (c : AbortCause) (s : State) : State :=
  { s with abortCause := some c, runState := .aborted }

/-- `halt()` (10_state.md R27). -/
def haltEngine (s : State) : State := s.setRun .halted

/-- Trap entry (43_trap.md R97, 60_exceptions.md R116): it saves the incremented pc in R7 and nothing else. -/
def trapEntry (s : State) : State := s.setReg .r7 s.pc

/-- The end of a trap that waited: the engine runs again at the pc, which the trap left alone (60_exceptions.md R117). -/
def resume (s : State) : State := s.setRun .running

/-! ### Strings in memory (43_trap.md R102, R104) -/

/-- One string read, under STRING_READ (20_memory.md R47, 92_eei_decisions.md D10): log 8. -/
def stringRead (a : Word) (s : State) : Word × State :=
  match s.cfg.stringRead with
  | .raw => (rawRead a s, s)
  | .arbitered => memRead a s

/-- The loop of PUTS and PUTSP from address `a`, with `fuel` words left before the hang: each nonzero word is put out by
`emit`, a zero word ends the walk, the address wraps (92_eei_decisions.md D17: log 14). `none` is the hang. -/
def stringWalk (emit : Word → List Byte) : Nat → Word → State → Option State
  | 0, _, _ => none
  | fuel + 1, a, s =>
    if (stringRead a s).1 = 0 then some (stringRead a s).2
    else stringWalk emit fuel (a + 1) (outBytes (emit (stringRead a s).1) (stringRead a s).2)

/-- What PUTS puts out for a nonzero word: its low byte (43_trap.md R102, 92_eei_decisions.md D16: log 13). -/
def putsBytes (w : Word) : List Byte := [lowByte w]

/-- What PUTSP puts out for a nonzero word: the low byte, "then high byte if nonzero" (43_trap.md R104). -/
def putspBytes (w : Word) : List Byte :=
  if highByte w = 0 then [lowByte w] else [lowByte w, highByte w]

/-- A string routine: walk from R0, then flush; the hang is a step that never completes. -/
def putString (emit : Word → List Byte) (s : State) : Host.Outcome State Fault Refusal :=
  match stringWalk emit Config.memWords (s.reg .r0) s with
  | some s' => .next (outFlush s')
  | none => .fault .unterminatedString

end Sys2Proof.Machine
end

