-- ==== Sys2Proof/Machine/Flags.lean ====
section
/-! DEFINITION. The condition flags (10_state.md R18-R20) and the branch test (40_control.md R81). -/

namespace Sys2Proof.Machine

/-- N, NEGATIVE (10_state.md R18). -/
def condN : BitVec 3 := 0b100

/-- Z, ZERO (10_state.md R18). -/
def condZ : BitVec 3 := 0b010

/-- P, POSITIVE (10_state.md R18). -/
def condP : BitVec 3 := 0b001

/-- The flag of a value (10_state.md R19). -/
def flagOf (v : Word) : BitVec 3 :=
  if v = 0 then condZ else if v.getLsbD 15 then condN else condP

/-- `setcc(v)` (10_state.md R19). -/
def setcc (v : Word) (s : State) : State := { s with cond := flagOf v }

/-- `x[r] <- v; setcc(v)`, the document's "update flags" (00_scope.md R11). -/
def writeAndFlag (r : Reg) (v : Word) (s : State) : State := setcc v (s.setReg r v)

/-- `(instr[11:9] & cond) != 0b000` (40_control.md R81). -/
def branchTaken (nzp cond : BitVec 3) : Bool := (nzp &&& cond) != 0#3

end Sys2Proof.Machine
end

