-- ==== Sys2Proof/Machine/Operands.lean ====
section
/-! DEFINITION. The operand forms (30_encoding.md R71, 42_load_store.md R96). `s.pc` is the incremented pc (10_state.md
R17), and every sum wraps modulo 2^16 (00_scope.md R9). -/

namespace Sys2Proof.Machine

/-- `sext_n(v)`: "if bit n-1 is set, OR the value with 0xFFFF << n ... otherwise the value is returned unchanged"
(00_scope.md R10). -/
def sext {n : Nat} (v : BitVec n) : Word :=
  if v.msb then v.setWidth 16 ||| (0xFFFF#16 <<< n) else v.setWidth 16

/-- An immediate, `sext_5(imm5)`. -/
def immOperand (imm5 : BitVec 5) : Word := sext imm5

/-- A PC-relative address, `pc + sext_9(offset9)`. -/
def pcRel9 (offset9 : BitVec 9) (s : State) : Word := s.pc + sext offset9

/-- A PC-relative target, `pc + sext_11(offset11)`. -/
def pcRel11 (offset11 : BitVec 11) (s : State) : Word := s.pc + sext offset11

/-- A base-plus-offset address, `x[baseR] + sext_6(offset6)`. -/
def baseOff6 (baseR : Reg) (offset6 : BitVec 6) (s : State) : Word := s.reg baseR + sext offset6

/-- An indirect address, `MemRead(pc + sext_9(offset9), 16)`, and the state after the pointer read. -/
def indirect9 (offset9 : BitVec 9) (s : State) : Word × State := memRead (pcRel9 offset9 s) s

end Sys2Proof.Machine
end

