-- ==== Sys2Proof/Machine/Control.lean ====
section
/-! DEFINITION. BR, JMP, JSR and JSRR (40_control.md). There are no delay slots (R84). -/

namespace Sys2Proof.Machine

/-- BR (40_control.md R81). -/
def execBr (nzp : BitVec 3) (offset9 : BitVec 9) (s : State) : Host.Outcome State Fault Refusal :=
  .next (if branchTaken nzp s.cond then s.setPc (pcRel9 offset9 s) else s)

/-- JMP, and RET when `baseR` is R7 (40_control.md R82). -/
def execJmp (baseR : Reg) (s : State) : Host.Outcome State Fault Refusal :=
  .next (s.setPc (s.reg baseR))

/-- JSR (40_control.md R83). -/
def execJsr (offset11 : BitVec 11) (s : State) : Host.Outcome State Fault Refusal :=
  .next ((s.setReg .r7 s.pc).setPc (pcRel11 offset11 s))

/-- JSRR (40_control.md R83): it "reads R[baseR] AFTER the write of R7" (90_conflicts.md C2: log 21). -/
def execJsrr (baseR : Reg) (s : State) : Host.Outcome State Fault Refusal :=
  .next ((s.setReg .r7 s.pc).setPc ((s.setReg .r7 s.pc).reg baseR))

end Sys2Proof.Machine
end

