-- ==== Sys2Proof/Machine/LoadStore.lean ====
section
/-! DEFINITION. Loads, stores and LEA (42_load_store.md). Which reads go through the arbiter: 20_memory.md R59. -/

namespace Sys2Proof.Machine

/-- The end of a load: the word read goes to `dr` with `setcc`, in the state after the read. -/
def finishLoad (dr : Reg) (read : Word × State) : State := writeAndFlag dr read.1 read.2

/-- LD (42_load_store.md R89). -/
def execLd (dr : Reg) (offset9 : BitVec 9) (s : State) : Host.Outcome State Fault Refusal :=
  .next (finishLoad dr (memRead (pcRel9 offset9 s) s))

/-- LDI (42_load_store.md R90): "The first read happens completely before the second." -/
def execLdi (dr : Reg) (offset9 : BitVec 9) (s : State) : Host.Outcome State Fault Refusal :=
  .next (finishLoad dr (memRead (indirect9 offset9 s).1 (indirect9 offset9 s).2))

/-- LDR (42_load_store.md R91). -/
def execLdr (dr baseR : Reg) (offset6 : BitVec 6) (s : State) : Host.Outcome State Fault Refusal :=
  .next (finishLoad dr (memRead (baseOff6 baseR offset6 s) s))

/-- LEA (42_load_store.md R92): it "performs no memory access" and updates the flags (90_conflicts.md C3: log 21). -/
def execLea (dr : Reg) (offset9 : BitVec 9) (s : State) : Host.Outcome State Fault Refusal :=
  .next (writeAndFlag dr (pcRel9 offset9 s) s)

/-- ST (42_load_store.md R93). -/
def execSt (sr : Reg) (offset9 : BitVec 9) (s : State) : Host.Outcome State Fault Refusal :=
  .next (memWrite (pcRel9 offset9 s) (s.reg sr) s)

/-- STI (42_load_store.md R94): the pointer read goes through the arbiter, the store does not. -/
def execSti (sr : Reg) (offset9 : BitVec 9) (s : State) : Host.Outcome State Fault Refusal :=
  .next (memWrite (indirect9 offset9 s).1 ((indirect9 offset9 s).2.reg sr) (indirect9 offset9 s).2)

/-- STR (42_load_store.md R95). -/
def execStr (sr baseR : Reg) (offset6 : BitVec 6) (s : State) : Host.Outcome State Fault Refusal :=
  .next (memWrite (baseOff6 baseR offset6 s) (s.reg sr) s)

end Sys2Proof.Machine
end

