-- ==== Sys2Proof/Machine/Operate.lean ====
section
/-! DEFINITION. ADD, AND and NOT (41_operate.md). -/

namespace Sys2Proof.Machine

/-- ADD, register mode (41_operate.md R85). -/
def execAddReg (dr sr1 sr2 : Reg) (s : State) : Host.Outcome State Fault Refusal :=
  .next (writeAndFlag dr (s.reg sr1 + s.reg sr2) s)

/-- ADD, immediate mode (41_operate.md R85). -/
def execAddImm (dr sr1 : Reg) (imm5 : BitVec 5) (s : State) : Host.Outcome State Fault Refusal :=
  .next (writeAndFlag dr (s.reg sr1 + immOperand imm5) s)

/-- AND, register mode (41_operate.md R86). -/
def execAndReg (dr sr1 sr2 : Reg) (s : State) : Host.Outcome State Fault Refusal :=
  .next (writeAndFlag dr (s.reg sr1 &&& s.reg sr2) s)

/-- AND, immediate mode (41_operate.md R86). -/
def execAndImm (dr sr1 : Reg) (imm5 : BitVec 5) (s : State) : Host.Outcome State Fault Refusal :=
  .next (writeAndFlag dr (s.reg sr1 &&& immOperand imm5) s)

/-- NOT (41_operate.md R87). -/
def execNot (dr sr : Reg) (s : State) : Host.Outcome State Fault Refusal :=
  .next (writeAndFlag dr (~~~ s.reg sr) s)

end Sys2Proof.Machine
end

