-- ==== Sys2Proof/Machine/Trap.lean ====
section
/-! DEFINITION. TRAP and its built-in service routines (43_trap.md). "No memory word is read to dispatch." Each routine below
starts in the state that trap entry leaves (`trapEntry`: R7 holds the incremented pc). GETC and IN end in a wait state;
their second step is `completeGetc` and `completeIn`. -/

namespace Sys2Proof.Machine

/-! ### The routines, after trap entry -/

/-- GETC's issuing step (43_trap.md R100). -/
def getcRoutine (s : State) : Host.Outcome State Fault Refusal := .next (s.setRun .waitGetc)

/-- OUT (43_trap.md R101). -/
def outRoutine (s : State) : Host.Outcome State Fault Refusal := .next (outFlush (outByte (lowByte (s.reg .r0)) s))

/-- PUTS (43_trap.md R102). -/
def putsRoutine (s : State) : Host.Outcome State Fault Refusal := putString putsBytes s

/-- IN's issuing step: the prompt, then the wait (43_trap.md R103). -/
def inRoutine (s : State) : Host.Outcome State Fault Refusal :=
  .next ((outBytes s.cfg.inPrompt s).setRun .waitIn)

/-- PUTSP (43_trap.md R104). -/
def putspRoutine (s : State) : Host.Outcome State Fault Refusal := putString putspBytes s

/-- HALT (43_trap.md R105). -/
def haltRoutine (s : State) : Host.Outcome State Fault Refusal :=
  .next (haltEngine (outFlush (outBytes s.cfg.haltNotice s)))

/-- A vector with no routine (43_trap.md R107): R7 is not rolled back. -/
def badVectorRoutine (v : BitVec 8) (s : State) : Host.Outcome State Fault Refusal :=
  .next (raiseAbort (.badTrapVector v) s)

/-! ### The instructions -/

/-- TRAP x20 (43_trap.md R97, R100). -/
def execTrapGetc (s : State) : Host.Outcome State Fault Refusal := getcRoutine (trapEntry s)

/-- TRAP x21 (43_trap.md R97, R101). -/
def execTrapOut (s : State) : Host.Outcome State Fault Refusal := outRoutine (trapEntry s)

/-- TRAP x22 (43_trap.md R97, R102). -/
def execTrapPuts (s : State) : Host.Outcome State Fault Refusal := putsRoutine (trapEntry s)

/-- TRAP x23 (43_trap.md R97, R103). -/
def execTrapIn (s : State) : Host.Outcome State Fault Refusal := inRoutine (trapEntry s)

/-- TRAP x24 (43_trap.md R97, R104). -/
def execTrapPutsp (s : State) : Host.Outcome State Fault Refusal := putspRoutine (trapEntry s)

/-- TRAP x25 (43_trap.md R97, R105). -/
def execTrapHalt (s : State) : Host.Outcome State Fault Refusal := haltRoutine (trapEntry s)

/-- TRAP, the generic row: the dispatch of 43_trap.md R97 on any vector. The decoder gives it only vectors outside
0x20-0x25, for which it aborts (R107); on a term with another vector it does what that vector's routine does (log 22). -/
def execTrap (v : BitVec 8) (s : State) : Host.Outcome State Fault Refusal :=
  match v with
  | 0x20#8 => getcRoutine (trapEntry s)
  | 0x21#8 => outRoutine (trapEntry s)
  | 0x22#8 => putsRoutine (trapEntry s)
  | 0x23#8 => inRoutine (trapEntry s)
  | 0x24#8 => putspRoutine (trapEntry s)
  | 0x25#8 => haltRoutine (trapEntry s)
  | v => badVectorRoutine v (trapEntry s)

/-! ### The completing steps of the two traps that wait -/

/-- The end of GETC once its input came: R0, the flags, and back to RUNNING. -/
def finishGetc (v : Word) (s : State) : State := resume (writeAndFlag .r0 v s)

/-- The completion of WAIT_GETC (43_trap.md R100). Zero extension: 92_eei_decisions.md D11 (log 9). -/
def completeGetc (s : State) : Host.Outcome State Fault Refusal :=
  match inByte s with
  | (.byte b, s1) => .next (finishGetc (zext8 b) s1)
  | (.eof, s1) => .next (finishGetc 0xFFFF s1)
  | (.hold, _) => .fault .waitingForInput
  | (.ended, _) => .fault .inputEnded

/-- The end of IN once its input came: the echo, the flush (92_eei_decisions.md D15: log 12), R0, the flags, RUNNING. -/
def finishIn (echo : Byte) (v : Word) (s : State) : State :=
  resume (writeAndFlag .r0 v (outFlush (outByte echo s)))

/-- The completion of WAIT_IN (43_trap.md R103): "The echo is exactly the byte read", 0xFF for EOF. -/
def completeIn (s : State) : Host.Outcome State Fault Refusal :=
  match inByte s with
  | (.byte b, s1) => .next (finishIn b (zext8 b) s1)
  | (.eof, s1) => .next (finishIn 0xFF 0xFFFF s1)
  | (.hold, _) => .fault .waitingForInput
  | (.ended, _) => .fault .inputEnded

end Sys2Proof.Machine
end

