-- ==== Sys2Proof/Machine/Unimplemented.lean ====
section
/-! DEFINITION. RTI and RES (44_unimplemented.md): "executing either is a fatal condition (process aborts)". The abort is a
next state of the model, in ABORTED with its cause. -/

namespace Sys2Proof.Machine

/-- RTI (44_unimplemented.md R108). -/
def execRti (s : State) : Host.Outcome State Fault Refusal := .next (raiseAbort (.illegalOpcode 0x8) s)

/-- RES (44_unimplemented.md R109). -/
def execRes (s : State) : Host.Outcome State Fault Refusal := .next (raiseAbort (.illegalOpcode 0xD) s)

end Sys2Proof.Machine
end

