-- ==== Sys2Proof/Decode.lean ====
section
/-! DEFINITION. The decoder (30_encoding.md R63-R73), total on words, and after it the encoder, written from the same
table of formats (30_encoding.md R65). The opcode numbers and most field positions are the spec's from general knowledge
(92_eei_decisions.md D22): log 1. Don't-care bits are ignored (30_encoding.md R69, D8): log 6. -/

namespace Sys2Proof

/-! ### Fields (30_encoding.md R64, R66-R68) -/

/-- `op = instr[15:12]` (30_encoding.md R64). -/
def opcodeField (w : Word) : BitVec 4 := w.extractLsb' 12 4

/-- `instr[11:9]`: dr, or the sr of ST, STI and STR (30_encoding.md R66). -/
def bits11to9 (w : Word) : BitVec 3 := w.extractLsb' 9 3

/-- `instr[8:6]`: sr1, the sr of NOT, or baseR (30_encoding.md R66). -/
def bits8to6 (w : Word) : BitVec 3 := w.extractLsb' 6 3

/-- `instr[2:0]`: sr2, "the register named by the low 3 bits" (30_encoding.md R66). -/
def bits2to0 (w : Word) : BitVec 3 := w.extractLsb' 0 3

/-- `immFlag = instr[5]` (30_encoding.md R68). -/
def immFlag (w : Word) : Bool := w.getLsbD 5

/-- The long-form bit, `instr[11]` (30_encoding.md R68). -/
def longForm (w : Word) : Bool := w.getLsbD 11

/-- `imm5 = instr[4:0]` (30_encoding.md R67). -/
def imm5Field (w : Word) : BitVec 5 := w.extractLsb' 0 5

/-- `offset6 = instr[5:0]` (30_encoding.md R67). -/
def offset6Field (w : Word) : BitVec 6 := w.extractLsb' 0 6

/-- `offset9 = instr[8:0]` (30_encoding.md R67). -/
def offset9Field (w : Word) : BitVec 9 := w.extractLsb' 0 9

/-- `offset11 = instr[10:0]` (30_encoding.md R67). -/
def offset11Field (w : Word) : BitVec 11 := w.extractLsb' 0 11

/-- `trapvect8 = instr[7:0]`, unsigned (30_encoding.md R67). -/
def trapvect8Field (w : Word) : BitVec 8 := w.extractLsb' 0 8

/-- The register a 3-bit register number names (10_state.md R15). -/
def Reg.ofBits (b : BitVec 3) : Reg :=
  match b with
  | 0#3 => .r0
  | 1#3 => .r1
  | 2#3 => .r2
  | 3#3 => .r3
  | 4#3 => .r4
  | 5#3 => .r5
  | 6#3 => .r6
  | _ => .r7

/-- The 3-bit number of a register. -/
def Reg.bits : Reg → BitVec 3
  | .r0 => 0#3
  | .r1 => 1#3
  | .r2 => 2#3
  | .r3 => 3#3
  | .r4 => 4#3
  | .r5 => 5#3
  | .r6 => 6#3
  | .r7 => 7#3

/-! ### The decoder -/

/-- The row of a TRAP word: one of the six vectors of 43_trap.md R98, else the generic row. -/
def decodeTrap (v : BitVec 8) : Instr :=
  match v with
  | 0x20#8 => .trapGetc
  | 0x21#8 => .trapOut
  | 0x22#8 => .trapPuts
  | 0x23#8 => .trapIn
  | 0x24#8 => .trapPutsp
  | 0x25#8 => .trapHalt
  | v => .trap v

/-- `decode(instr)` (30_encoding.md R64, R65, R72): "every 16-bit word decodes to exactly one of the 16 opcodes, so the
decoder is total". -/
def decode (w : Word) : Instr :=
  match opcodeField w with
  | 0x0#4 => .br (bits11to9 w) (offset9Field w)
  | 0x1#4 =>
    if immFlag w then .addImm (.ofBits (bits11to9 w)) (.ofBits (bits8to6 w)) (imm5Field w)
    else .addReg (.ofBits (bits11to9 w)) (.ofBits (bits8to6 w)) (.ofBits (bits2to0 w))
  | 0x2#4 => .ld (.ofBits (bits11to9 w)) (offset9Field w)
  | 0x3#4 => .st (.ofBits (bits11to9 w)) (offset9Field w)
  | 0x4#4 => if longForm w then .jsr (offset11Field w) else .jsrr (.ofBits (bits8to6 w))
  | 0x5#4 =>
    if immFlag w then .andImm (.ofBits (bits11to9 w)) (.ofBits (bits8to6 w)) (imm5Field w)
    else .andReg (.ofBits (bits11to9 w)) (.ofBits (bits8to6 w)) (.ofBits (bits2to0 w))
  | 0x6#4 => .ldr (.ofBits (bits11to9 w)) (.ofBits (bits8to6 w)) (offset6Field w)
  | 0x7#4 => .str (.ofBits (bits11to9 w)) (.ofBits (bits8to6 w)) (offset6Field w)
  | 0x8#4 => .rti
  | 0x9#4 => .notReg (.ofBits (bits11to9 w)) (.ofBits (bits8to6 w))
  | 0xA#4 => .ldi (.ofBits (bits11to9 w)) (offset9Field w)
  | 0xB#4 => .sti (.ofBits (bits11to9 w)) (offset9Field w)
  | 0xC#4 => .jmp (.ofBits (bits8to6 w))
  | 0xD#4 => .res
  | 0xE#4 => .lea (.ofBits (bits11to9 w)) (offset9Field w)
  | _ => decodeTrap (trapvect8Field w)

/-- Why a sequence of words gives no instruction. -/
inductive DecodeReject
  /-- There is no word: an instruction is exactly one word (30_encoding.md R63). -/
  | noWord
deriving DecidableEq, Repr

/-- The instruction at the head of a sequence of words, and the words after it. An instruction is exactly one word
(30_encoding.md R63), and every word decodes (R64), so only the empty sequence is rejected. -/
def decodeWords : List Word → Except DecodeReject (Instr × List Word)
  | [] => .error .noWord
  | w :: rest => .ok (decode w, rest)

/-- The words of an instruction given as one number, numbered as spec/opcode_table.json numbers bits. No instruction is
longer than one word (30_encoding.md R63), so more than 16 bits are no instruction's words. -/
def tableWords (nbits w : Nat) : List Word :=
  if nbits ≤ 16 then [BitVec.ofNat 16 (w % 2 ^ nbits)] else []

/-- What the decoder reads from an instruction whose bits are `w`. -/
def decodeTableWord (nbits w : Nat) : Option Instr :=
  match decodeWords (tableWords nbits w) with
  | .ok (i, _) => some i
  | .error _ => none

/-! ### The encoder -/

/-- The word of an instruction, with every don't-care bit 0 (30_encoding.md R65, R72). -/
def encode : Instr → Word
  | .br nzp off => 0x0#4 ++ nzp ++ off
  | .addReg d a b => 0x1#4 ++ d.bits ++ a.bits ++ 0#1 ++ 0#2 ++ b.bits
  | .addImm d a imm => 0x1#4 ++ d.bits ++ a.bits ++ 1#1 ++ imm
  | .ld d off => 0x2#4 ++ d.bits ++ off
  | .st r off => 0x3#4 ++ r.bits ++ off
  | .jsr off => 0x4#4 ++ 1#1 ++ off
  | .jsrr b => 0x4#4 ++ 0#1 ++ 0#2 ++ b.bits ++ 0#6
  | .andReg d a b => 0x5#4 ++ d.bits ++ a.bits ++ 0#1 ++ 0#2 ++ b.bits
  | .andImm d a imm => 0x5#4 ++ d.bits ++ a.bits ++ 1#1 ++ imm
  | .ldr d b off => 0x6#4 ++ d.bits ++ b.bits ++ off
  | .str r b off => 0x7#4 ++ r.bits ++ b.bits ++ off
  | .rti => 0x8#4 ++ 0#12
  | .notReg d a => 0x9#4 ++ d.bits ++ a.bits ++ 0#6
  | .ldi d off => 0xA#4 ++ d.bits ++ off
  | .sti r off => 0xB#4 ++ r.bits ++ off
  | .jmp b => 0xC#4 ++ 0#3 ++ b.bits ++ 0#6
  | .res => 0xD#4 ++ 0#12
  | .lea d off => 0xE#4 ++ d.bits ++ off
  | .trapGetc => 0xF#4 ++ 0#4 ++ 0x20#8
  | .trapOut => 0xF#4 ++ 0#4 ++ 0x21#8
  | .trapPuts => 0xF#4 ++ 0#4 ++ 0x22#8
  | .trapIn => 0xF#4 ++ 0#4 ++ 0x23#8
  | .trapPutsp => 0xF#4 ++ 0#4 ++ 0x24#8
  | .trapHalt => 0xF#4 ++ 0#4 ++ 0x25#8
  | .trap v => 0xF#4 ++ 0#4 ++ v

/-! ### The opcode table's fixed bits -/

/-- The mask and the match value of an instruction's row, as spec/opcode_table.json gives them. -/
def rowMaskMatch : Instr → Word × Word
  | .br _ _ => (0xF000, 0x0000)
  | .addReg _ _ _ => (0xF020, 0x1000)
  | .addImm _ _ _ => (0xF020, 0x1020)
  | .ld _ _ => (0xF000, 0x2000)
  | .st _ _ => (0xF000, 0x3000)
  | .jsr _ => (0xF800, 0x4800)
  | .jsrr _ => (0xF800, 0x4000)
  | .andReg _ _ _ => (0xF020, 0x5000)
  | .andImm _ _ _ => (0xF020, 0x5020)
  | .ldr _ _ _ => (0xF000, 0x6000)
  | .str _ _ _ => (0xF000, 0x7000)
  | .rti => (0xF000, 0x8000)
  | .notReg _ _ => (0xF000, 0x9000)
  | .ldi _ _ => (0xF000, 0xA000)
  | .sti _ _ => (0xF000, 0xB000)
  | .jmp _ => (0xF000, 0xC000)
  | .res => (0xF000, 0xD000)
  | .lea _ _ => (0xF000, 0xE000)
  | .trapGetc => (0xF0FF, 0xF020)
  | .trapOut => (0xF0FF, 0xF021)
  | .trapPuts => (0xF0FF, 0xF022)
  | .trapIn => (0xF0FF, 0xF023)
  | .trapPutsp => (0xF0FF, 0xF024)
  | .trapHalt => (0xF0FF, 0xF025)
  | .trap _ => (0xF000, 0xF000)

end Sys2Proof
end

