-- ==== Sys2Proof/Machine/Engine.lean ====
section
/-! DEFINITION. What surrounds the meaning of an instruction in a step: the fetch (10_state.md R27), the places where a host
abort lands (60_exceptions.md R115, R118), and where a word must stand to be fetched next. -/

namespace Sys2Proof.Machine

/-- The fetch: `instr <- MemRead(pc, 16)`, then `pc <- pc + 1`, which wraps (10_state.md R27, R17). -/
def fetch (s : State) : Word × State :=
  ((memRead s.pc s).1, (memRead s.pc s).2.setPc (s.pc + 1))

/-- Whether a wait state holds: no byte is there and no EOF marker either (10_state.md R28, 20_memory.md R45). -/
def holding (s : State) : Bool :=
  s.inQueue.isEmpty && !(s.inEnded && decide (s.cfg.eofPolicy = .valueFFFF))

/-- The host abort: ABORTED with cause EXTERNAL_ABORT; the request is used up (60_exceptions.md R118). -/
def externalAbort (s : State) : State := raiseAbort .externalAbort { s with hostAbort := none }

/-- What happens at a step boundary. -/
inductive Boundary
  /-- The host abort lands. -/
  | abort (s : State)
  /-- The block's own step comes first. -/
  | proceed (s : State)
deriving DecidableEq, Repr

/-- A pending host abort at a boundary of a running block: it lands when its count is used up, or when the block holds
(nothing else can happen then); else one more step comes first (60_exceptions.md R115 items 2 and 3: log 17). -/
def abortOrCount (hold : Bool) (s : State) : Boundary :=
  match s.hostAbort with
  | none => .proceed s
  | some 0 => .abort (externalAbort s)
  | some (n + 1) => if hold then .abort (externalAbort s) else .proceed { s with hostAbort := some n }

/-- The boundary before a step: an abort may land in RUNNING and in the wait states, never in a terminal state (10_state.md
R28: "no step leaves either"). -/
def hostBoundary (s : State) : Boundary :=
  match s.runState with
  | .running => abortOrCount false s
  | .waitGetc => abortOrCount (holding s) s
  | .waitIn => abortOrCount (holding s) s
  | .halted => .proceed s
  | .aborted => .proceed s

/-- The address of the word that the next step fetches once `s` is readied by `readyToFetch`: the pc, but for a pc at KBSR,
where a fetch reads the poll's answer and not a stored word; there it is the next address (log 18). -/
def fetchAddress (s : State) : Word := if s.pc = Config.kbsrAddr then s.pc + 1 else s.pc

/-- `s` made to fetch at `fetchAddress s` in its next step: RUNNING, no abort pending. -/
def readyToFetch (s : State) : State :=
  { s with pc := fetchAddress s, runState := .running, abortCause := none, hostAbort := none }

/-- A word stored where the next step fetches. -/
def placeFetchWord (s : State) (w : Word) : State := memWrite (fetchAddress s) w (readyToFetch s)

end Sys2Proof.Machine
end

