-- ==== Sys2Proof/Machine/Step.lean ====
section
/-! DEFINITION. One step of the state machine (10_state.md R27, R28). -/

namespace Sys2Proof.Machine

/-- The instruction step: fetch, decode, execute (10_state.md R27). -/
def instructionStep (s : State) : Host.Outcome State Fault Refusal :=
  exec (decode (fetch s).1) (fetch s).2

/-- The block's own step in each run state: "In HALTED or ABORTED the block has no step" (10_state.md R28). -/
def blockStep (s : State) : Host.Outcome State Fault Refusal :=
  match s.runState with
  | .running => instructionStep s
  | .waitGetc => completeGetc s
  | .waitIn => completeIn s
  | .halted => .fault .halted
  | .aborted => .fault .aborted

/-- One step: the host abort if it lands at this boundary, else the block's own step. -/
def step (s : State) : Host.Outcome State Fault Refusal :=
  match hostBoundary s with
  | .abort s' => .next s'
  | .proceed s' => blockStep s'

/-- `s` with an instruction's word placed where `step` fetches it next. The word goes in as the decoder's first word (no
word longer than 16 bits is an instruction: then the state is only readied). -/
def State.withFetchWord (s : State) (nbits w : Nat) : State :=
  match tableWords nbits w with
  | word :: _ => placeFetchWord s word
  | [] => readyToFetch s

end Sys2Proof.Machine
end

