-- ==== Sys2Proof/Machine/HostPort.lean ====
section
/-! DEFINITION. What the host does to the block from outside (00_scope.md R6): the image preload (70_reset_and_hazards.md
R132-R136), input bytes, poll answers, the abort request, and the status it reads. None of these is a step. -/

namespace Sys2Proof.Machine

/-! ### The image preload (70_reset_and_hazards.md R134) -/

/-- The words of an image body, written from address `a` on: big-endian, stopping past 0xFFFF (92_eei_decisions.md D19), a
trailing odd byte ignored (D20). `a` is "unbounded integer here, not wrapped". -/
def loadWords : Nat → List Byte → Memory → Memory
  | a, hi :: lo :: rest, m =>
    if a > 0xFFFF then m else loadWords (a + 1) rest (m.write a (hi ++ lo))
  | _, _, m => m

/-- `load(B)` on memory: the first word is the origin; fewer than two bytes write nothing (92_eei_decisions.md D21). -/
def loadImage : List Byte → Memory → Memory
  | hi :: lo :: body, m => loadWords ((hi ++ lo : Word).toNat) body m
  | _, m => m

/-- An image source as the host sees it: the bytes that could be read, and whether it was opened and read to its end. A
source that cannot be opened has no bytes and is not readable. -/
structure ImageSource where
  bytes : List Byte
  readable : Bool
deriving DecidableEq, Repr

/-- Load one image: a plain write of `mem`, which "never polls", "changes no register" and "produces no output"
(70_reset_and_hazards.md R134). A failed load does not undo the words it wrote (R136). -/
def preload (i : ImageSource) (s : State) : State := { s with mem := loadImage i.bytes s.mem }

/-- Load every image in argument order, stopping at the first failure; the Bool says whether all loads succeeded
(70_reset_and_hazards.md R132, R136). -/
def preloadAll : List ImageSource → State → Bool × State
  | [], s => (true, s)
  | i :: rest, s => if i.readable then preloadAll rest (preload i s) else (false, preload i s)

/-- The end of the boot. -/
inductive Boot
  /-- Every load succeeded: the state machine starts stepping from this state. -/
  | started (s : State)
  /-- A load failed: "execution never starts"; `run_state` stays RUNNING, and no step is ever scheduled. -/
  | neverStarted (s : State)
deriving DecidableEq, Repr

/-- Reset, then the preload (70_reset_and_hazards.md R132). -/
def boot (p : Params) (images : List ImageSource) : Boot :=
  match preloadAll images (State.resetWith p) with
  | (true, s) => .started s
  | (false, s) => .neverStarted s

/-! ### Input, polls, abort and status -/

/-- The input collaborator gets one more byte, unless its input has ended (10_state.md R29; log 11). -/
def hostSupply (b : Byte) (s : State) : State :=
  if s.inEnded then s else { s with inQueue := s.inQueue ++ [b] }

/-- The input ends after the bytes it holds (20_memory.md R45; log 11). -/
def hostEndInput (s : State) : State := { s with inEnded := true }

/-- The host fixes the answers of the coming polls (20_memory.md R44; log 7). -/
def hostFixPolls (answers : List Bool) (s : State) : State := { s with pollScript := answers }

/-- The host asks for an abort that `n` enabled steps still come before (60_exceptions.md R115 item 3, R118; log 17). -/
def hostRequestAbort (n : Nat) (s : State) : State := { s with hostAbort := some n }

/-- The status interface (00_scope.md R6). -/
inductive Status
  | running
  | halted
  | aborted (cause : Option AbortCause)
deriving DecidableEq, Repr

/-- What the host reads: the wait states are sub-states of RUNNING (10_state.md R24). -/
def status (s : State) : Status :=
  match s.runState with
  | .running => .running
  | .waitGetc => .running
  | .waitIn => .running
  | .halted => .halted
  | .aborted => .aborted s.abortCause

/-- The code number of a cause (60_exceptions.md R112). -/
def AbortCause.code : AbortCause → Nat
  | .illegalOpcode _ => 1
  | .badTrapVector _ => 2
  | .externalAbort => 3

end Sys2Proof.Machine
end

