-- ==== Sys2Proof/Safety.lean ====
section
/-! DEFINITION. What counts as a good state and a good end of a run, in the terms the statements use. -/

namespace Sys2Proof.Machine

/-- "exactly one flag holds at any time" (10_state.md R18). -/
abbrev OneHot (c : BitVec 3) : Prop := c = 0b100#3 ∨ c = 0b010#3 ∨ c = 0b001#3

/-- The causes that 60_exceptions.md R112 lists, with the values they may record. -/
def legalCause : AbortCause → Bool
  | .illegalOpcode op => op == 0x8#4 || op == 0xD#4
  | .badTrapVector v => !serviceVector v
  | .externalAbort => true

/-- A cause is recorded exactly in ABORTED, and it is one of 60_exceptions.md R112 (10_state.md R25). -/
def causeMatches (s : State) : Bool :=
  match s.runState, s.abortCause with
  | .aborted, some c => legalCause c
  | .aborted, none => false
  | .running, c => c.isNone
  | .waitGetc, c => c.isNone
  | .waitIn, c => c.isNone
  | .halted, c => c.isNone

/-- The invariant of the machine: memory in its canonical form, COND one-hot, the abort cause in step with the run state. -/
abbrev Inv (s : State) : Prop := s.mem.wf = true ∧ OneHot s.cond ∧ causeMatches s = true

/-- HALTED and ABORTED "are terminal, and no step leaves either" (10_state.md R24). -/
abbrev Terminal (s : State) : Prop := s.runState = .halted ∨ s.runState = .aborted

/-- A good end: "HALTED means normal completion" (60_exceptions.md R119). -/
abbrev NormalCompletion (s : State) : Prop := s.runState = .halted

end Sys2Proof.Machine
end

