-- ==== Sys2Proof/Certificates/Slice0/Obligations.lean ====
section
/-! DEFINITION. The statements about the model, for the provers. Each docstring names the rule of spec/ it formalises and,
where it rests on a choice that the source does not make, the log entry (notes/assumptions). In a statement about `exec`,
`s` is the state after the fetch: `s.pc` is the incremented pc (10_state.md R17). -/

namespace Sys2Proof.Claims

open Sys2Proof.Machine

/-! ### Terms of the statements -/

/-- `c` is the flag of `v` (10_state.md R19). -/
def FlagMatches (v : Word) (c : BitVec 3) : Prop :=
  (c = condZ ↔ v = 0) ∧ (c = condN ↔ v.getLsbD 15 = true) ∧ (c = condP ↔ v ≠ 0 ∧ v.getLsbD 15 = false)

/-- Every word of memory reads as before. -/
def SameMem (s t : State) : Prop := ∀ a, rawRead a t = rawRead a s

/-- Every register but `r` reads as before. -/
def SameRegsBut (r : Reg) (s t : State) : Prop := ∀ q, q ≠ r → t.reg q = s.reg q

/-- Every register reads as before. -/
def SameRegs (s t : State) : Prop := ∀ q, t.reg q = s.reg q

/-- The input side is as before: the pending bytes and the poll's fields. -/
def SameInput (s t : State) : Prop :=
  t.inQueue = s.inQueue ∧ t.pollScript = s.pollScript ∧ t.pollDraws = s.pollDraws

/-- The run state, the cause, the output and the fields only the host writes are as before. -/
def SameRun (s t : State) : Prop :=
  t.runState = s.runState ∧ t.abortCause = s.abortCause ∧ t.out = s.out ∧ t.inEnded = s.inEnded ∧
    t.hostAbort = s.hostAbort ∧ t.cfg = s.cfg

/-- The frame and the flag of an instruction that writes `v` to `d` and nothing else but COND. -/
def WritesOnly (d : Reg) (v : Word) (s t : State) : Prop :=
  t.reg d = v ∧ SameRegsBut d s t ∧ FlagMatches v t.cond ∧ t.pc = s.pc ∧ SameMem s t ∧ SameInput s t ∧ SameRun s t

/-- The result and the frame of a load of address `a` into `d`: the word and the device effect are those of the arbitered
read of `a` in `s`, and besides only `d` and COND are written. -/
def LoadsFrom (d : Reg) (a : Word) (s t : State) : Prop :=
  t.reg d = (memRead a s).1 ∧ SameRegsBut d s t ∧ FlagMatches (memRead a s).1 t.cond ∧ t.pc = s.pc ∧
    SameMem (memRead a s).2 t ∧ SameInput (memRead a s).2 t ∧ SameRun s t

/-- The result and the frame of a store of `v` to address `a`: that word, and no other, is replaced. -/
def StoresOnly (a v : Word) (s t : State) : Prop :=
  (∀ b, rawRead b t = if b = a then v else rawRead b s) ∧ SameRegs s t ∧ t.cond = s.cond ∧ t.pc = s.pc ∧
    SameInput s t ∧ SameRun s t

/-- A trap that went on has written R7 and left every other register, COND, the pc, memory and the input alone. -/
def TrapFrame (s t : State) : Prop :=
  t.reg .r7 = s.pc ∧ SameRegsBut .r7 s t ∧ t.cond = s.cond ∧ t.pc = s.pc ∧ SameMem s t ∧ SameInput s t ∧
    t.inEnded = s.inEnded ∧ t.hostAbort = s.hostAbort ∧ t.cfg = s.cfg

/-- The low byte of a word. -/
def lo (w : Word) : Byte := w.extractLsb' 0 8

/-- The high byte of a word. -/
def hi (w : Word) : Byte := w.extractLsb' 8 8

/-- The `j`-th word of the string that R0 points to; the address wraps. -/
def stringWord (s : State) (j : Nat) : Word := rawRead (s.reg .r0 + BitVec.ofNat 16 j) s

/-- R0 points to a string of `k` nonzero words and a zero word after them, read without a poll: STRING_READ is raw, or the
string does not run through KBSR. -/
def PlainString (s : State) (k : Nat) : Prop :=
  k < 65536 ∧ (∀ j, j < k → stringWord s j ≠ 0) ∧ stringWord s k = 0 ∧
    (s.cfg.stringRead = .raw ∨ ∀ j, j ≤ k → s.reg .r0 + BitVec.ofNat 16 j ≠ Config.kbsrAddr)

/-- A block that runs, with no host abort pending. -/
def Runs (s : State) : Prop := s.runState = .running ∧ s.hostAbort = none

/-- The two bytes of a word in an image file, high byte first (20_memory.md R50). -/
def wordBytes (w : Word) : List Byte := [hi w, lo w]

/-- The bytes of the image with origin `o` and words `ws` (70_reset_and_hazards.md R134). -/
def imageBytes (o : Word) (ws : List Word) : List Byte := wordBytes o ++ ws.flatMap wordBytes

/-- The registers an instruction may write in its own step (10_state.md R21). -/
def destinations : Instr → List Reg
  | .addReg d _ _ => [d]
  | .addImm d _ _ => [d]
  | .andReg d _ _ => [d]
  | .andImm d _ _ => [d]
  | .notReg d _ => [d]
  | .ld d _ => [d]
  | .ldi d _ => [d]
  | .ldr d _ _ => [d]
  | .lea d _ => [d]
  | .jsr _ => [.r7]
  | .jsrr _ => [.r7]
  | .trapGetc => [.r7]
  | .trapOut => [.r7]
  | .trapPuts => [.r7]
  | .trapIn => [.r7]
  | .trapPutsp => [.r7]
  | .trapHalt => [.r7]
  | .trap _ => [.r7]
  | .br _ _ => []
  | .jmp _ => []
  | .st _ _ => []
  | .sti _ _ => []
  | .str _ _ _ => []
  | .rti => []
  | .res => []

/-- The instructions that define a destination register, which alone set the flags in their own step (10_state.md R20). -/
def setsFlags : Instr → Bool
  | .addReg _ _ _ | .addImm _ _ _ | .andReg _ _ _ | .andImm _ _ _ | .notReg _ _ => true
  | .ld _ _ | .ldi _ _ | .ldr _ _ _ | .lea _ _ => true
  | .jsr _ | .jsrr _ | .br _ _ | .jmp _ | .st _ _ | .sti _ _ | .str _ _ _ | .rti | .res => false
  | .trapGetc | .trapOut | .trapPuts | .trapIn | .trapPutsp | .trapHalt | .trap _ => false

/-- The instructions that may write the pc themselves (10_state.md R17). -/
def writesPc : Instr → Bool
  | .br _ _ | .jmp _ | .jsr _ | .jsrr _ => true
  | .addReg _ _ _ | .addImm _ _ _ | .andReg _ _ _ | .andImm _ _ _ | .notReg _ _ => false
  | .ld _ _ | .ldi _ _ | .ldr _ _ _ | .lea _ _ | .st _ _ | .sti _ _ | .str _ _ _ | .rti | .res => false
  | .trapGetc | .trapOut | .trapPuts | .trapIn | .trapPutsp | .trapHalt | .trap _ => false

/-- The TRAP rows, the only instructions that drive the output collaborator (43_trap.md R106). -/
def isTrap : Instr → Bool
  | .trapGetc | .trapOut | .trapPuts | .trapIn | .trapPutsp | .trapHalt | .trap _ => true
  | .br _ _ | .jmp _ | .jsr _ | .jsrr _ => false
  | .addReg _ _ _ | .addImm _ _ _ | .andReg _ _ _ | .andImm _ _ _ | .notReg _ _ => false
  | .ld _ _ | .ldi _ _ | .ldr _ _ _ | .lea _ _ | .st _ _ | .sti _ _ | .str _ _ _ | .rti | .res => false

/-- The two string routines. -/
def isString : Instr → Bool
  | .trapPuts | .trapPutsp => true
  | .trapGetc | .trapOut | .trapIn | .trapHalt | .trap _ => false
  | .br _ _ | .jmp _ | .jsr _ | .jsrr _ => false
  | .addReg _ _ _ | .addImm _ _ _ | .andReg _ _ _ | .andImm _ _ _ | .notReg _ _ => false
  | .ld _ _ | .ldi _ _ | .ldr _ _ _ | .lea _ _ | .st _ _ | .sti _ _ | .str _ _ _ | .rti | .res => false

/-- The address an instruction stores to, if it stores (42_load_store.md R93, R94, R95). -/
def storeTarget : Instr → State → Option Word
  | .st _ off, s => some (s.pc + off.signExtend 16)
  | .str _ b off, s => some (s.reg b + off.signExtend 16)
  | .sti _ off, s => some (memRead (s.pc + off.signExtend 16) s).1
  | .ld _ _, _ | .ldi _ _, _ | .ldr _ _ _, _ | .lea _ _, _ => none
  | .addReg _ _ _, _ | .addImm _ _ _, _ | .andReg _ _ _, _ | .andImm _ _ _, _ | .notReg _ _, _ => none
  | .br _ _, _ | .jmp _, _ | .jsr _, _ | .jsrr _, _ | .rti, _ | .res, _ => none
  | .trapGetc, _ | .trapOut, _ | .trapPuts, _ | .trapIn, _ | .trapPutsp, _ | .trapHalt, _ | .trap _, _ => none

/-- Whether an instruction makes arbitered reads of its own, under the parameters of `s` (20_memory.md R59, R47). -/
def readsArbitered (i : Instr) (s : State) : Bool :=
  match i with
  | .ld _ _ | .ldi _ _ | .ldr _ _ _ | .sti _ _ => true
  | .trapPuts | .trapPutsp => decide (s.cfg.stringRead = .arbitered)
  | .lea _ _ | .st _ _ | .str _ _ _ => false
  | .addReg _ _ _ | .addImm _ _ _ | .andReg _ _ _ | .andImm _ _ _ | .notReg _ _ => false
  | .br _ _ | .jmp _ | .jsr _ | .jsrr _ | .rti | .res => false
  | .trapGetc | .trapOut | .trapIn | .trapHalt | .trap _ => false

end Sys2Proof.Claims

open Sys2Proof Sys2Proof.Machine Sys2Proof.Claims

/-! ### Bits and flags -/

/-- 00_scope.md R10 and 95_test_vectors.md T1: sign extension keeps the low n bits, is idempotent at the same width, and is
the two's-complement value. -/
def Obligations.SignExtensionKeepsTheSignedValue : Prop :=
  ∀ (n : Nat) (v : BitVec n), 1 ≤ n → n ≤ 15 →
    (sext v).toInt = v.toInt ∧ (sext v).extractLsb' 0 n = v ∧ sext ((sext v).extractLsb' 0 n) = sext v

/-- 10_state.md R19. -/
def Obligations.SetccFollowsTheFlagRule : Prop :=
  ∀ (v : Word) (s : State),
    (setcc v s).cond = (if v = 0 then condZ else if v.getLsbD 15 then condN else condP) ∧
      FlagMatches v (setcc v s).cond ∧ setcc v s = { s with cond := (setcc v s).cond }

/-! ### Encoding (rests on the opcode numbers and field positions of log 1 and the don't-care bits of log 6) -/

/-- Words written out from the patterns of 30_encoding.md R65 decode to their instructions; expected results are those of
95_test_vectors.md 2.3 (logs 1 and 6). -/
def Obligations.WrittenOutWordsDecode : Prop :=
  decode 0x0000 = .br 0 0 ∧ decode 0x1025 = .addImm .r0 .r0 5 ∧ decode 0x14C4 = .addReg .r2 .r3 .r4 ∧
    decode 0x14DC = .addReg .r2 .r3 .r4 ∧ decode 0x9280 = .notReg .r1 .r2 ∧ decode 0xCFFF = .jmp .r7 ∧
    decode 0x4FFF = .jsr 0x7FF ∧ decode 0x41C0 = .jsrr .r7 ∧ decode 0x62A0 = .ldr .r1 .r2 0x20 ∧
    decode 0x729F = .str .r1 .r2 0x1F ∧ decode 0xFF25 = .trapHalt ∧ decode 0xDABC = .res

/-- 30_encoding.md R65, R66, R69, R72 and 43_trap.md R98: every format at every value of its fields, with every value of its
don't-care bits (logs 1 and 6). -/
def Obligations.DecodeReadsEveryFormat : Prop :=
  ∀ (d a b : Reg) (nzp x3 : BitVec 3) (x2 : BitVec 2) (x4 : BitVec 4) (i5 : BitVec 5) (o6 x6 : BitVec 6) (v : BitVec 8)
    (o9 : BitVec 9) (o11 : BitVec 11) (x12 : BitVec 12),
    decode (0x0#4 ++ nzp ++ o9) = .br nzp o9 ∧
    decode (0x1#4 ++ d.bits ++ a.bits ++ 0#1 ++ x2 ++ b.bits) = .addReg d a b ∧
    decode (0x1#4 ++ d.bits ++ a.bits ++ 1#1 ++ i5) = .addImm d a i5 ∧
    decode (0x2#4 ++ d.bits ++ o9) = .ld d o9 ∧
    decode (0x3#4 ++ d.bits ++ o9) = .st d o9 ∧
    decode (0x4#4 ++ 1#1 ++ o11) = .jsr o11 ∧
    decode (0x4#4 ++ 0#1 ++ x2 ++ b.bits ++ x6) = .jsrr b ∧
    decode (0x5#4 ++ d.bits ++ a.bits ++ 0#1 ++ x2 ++ b.bits) = .andReg d a b ∧
    decode (0x5#4 ++ d.bits ++ a.bits ++ 1#1 ++ i5) = .andImm d a i5 ∧
    decode (0x6#4 ++ d.bits ++ b.bits ++ o6) = .ldr d b o6 ∧
    decode (0x7#4 ++ d.bits ++ b.bits ++ o6) = .str d b o6 ∧
    decode (0x8#4 ++ x12) = .rti ∧
    decode (0x9#4 ++ d.bits ++ a.bits ++ x6) = .notReg d a ∧
    decode (0xA#4 ++ d.bits ++ o9) = .ldi d o9 ∧
    decode (0xB#4 ++ d.bits ++ o9) = .sti d o9 ∧
    decode (0xC#4 ++ x3 ++ b.bits ++ x6) = .jmp b ∧
    decode (0xD#4 ++ x12) = .res ∧
    decode (0xE#4 ++ d.bits ++ o9) = .lea d o9 ∧
    decode (0xF#4 ++ x4 ++ 0x20#8) = .trapGetc ∧
    decode (0xF#4 ++ x4 ++ 0x21#8) = .trapOut ∧
    decode (0xF#4 ++ x4 ++ 0x22#8) = .trapPuts ∧
    decode (0xF#4 ++ x4 ++ 0x23#8) = .trapIn ∧
    decode (0xF#4 ++ x4 ++ 0x24#8) = .trapPutsp ∧
    decode (0xF#4 ++ x4 ++ 0x25#8) = .trapHalt ∧
    (serviceVector v = false → decode (0xF#4 ++ x4 ++ v) = .trap v)

/-- Decode and encode agree for every well-formed instruction (logs 1 and 6). -/
def Obligations.DecodeOfEncodeIsTheInstruction : Prop := ∀ i : Instr, i.wf = true → decode (encode i) = i

/-- 30_encoding.md R64: the decoder is total. Every word decodes to a well-formed instruction whose row of
spec/opcode_table.json the word matches (log 1). -/
def Obligations.EveryWordMatchesTheRowItDecodesTo : Prop :=
  ∀ w : Word, (decode w).wf = true ∧ w &&& (rowMaskMatch (decode w)).1 = (rowMaskMatch (decode w)).2

/-! ### Operate (41_operate.md) -/

/-- 41_operate.md R85, both modes: the sum modulo 2^16, the flag of the sum, nothing else. -/
def Obligations.AddWritesTheWrappedSum : Prop :=
  (∀ (s : State) (d a b : Reg), ∃ t v, exec (.addReg d a b) s = .next t ∧
    v.toNat = ((s.reg a).toNat + (s.reg b).toNat) % 65536 ∧ WritesOnly d v s t) ∧
  (∀ (s : State) (d a : Reg) (imm : BitVec 5), ∃ t v, exec (.addImm d a imm) s = .next t ∧
    (v.toNat : Int) = ((s.reg a).toNat + imm.toInt) % 65536 ∧ WritesOnly d v s t)

/-- 41_operate.md R86, both modes: "The immediate is sign-extended, so bits 15:5 of b equal imm5[4]". -/
def Obligations.AndWritesTheBitwiseAnd : Prop :=
  (∀ (s : State) (d a b : Reg), ∃ t v, exec (.andReg d a b) s = .next t ∧
    (∀ k, v.getLsbD k = ((s.reg a).getLsbD k && (s.reg b).getLsbD k)) ∧ WritesOnly d v s t) ∧
  (∀ (s : State) (d a : Reg) (imm : BitVec 5), ∃ t v, exec (.andImm d a imm) s = .next t ∧
    (∀ k, v.getLsbD k = ((s.reg a).getLsbD k && (if k < 5 then imm.getLsbD k else imm.getLsbD 4))) ∧
    WritesOnly d v s t)

/-- 41_operate.md R87. -/
def Obligations.NotWritesTheComplement : Prop :=
  ∀ (s : State) (d a : Reg), ∃ t v, exec (.notReg d a) s = .next t ∧
    (v.toNat + (s.reg a).toNat = 65535) ∧ WritesOnly d v s t

/-! ### Control transfer (40_control.md) -/

/-- 40_control.md R81: the branch is taken exactly when the mask meets COND; nothing but the pc is written. -/
def Obligations.BranchMovesOnlyThePc : Prop :=
  ∀ (s : State) (nzp : BitVec 3) (off : BitVec 9), ∃ t, exec (.br nzp off) s = .next t ∧
    (nzp &&& s.cond ≠ 0 → t.pc = s.pc + off.signExtend 16) ∧ (nzp &&& s.cond = 0 → t.pc = s.pc) ∧
    SameRegs s t ∧ t.cond = s.cond ∧ SameMem s t ∧ SameInput s t ∧ SameRun s t

/-- 40_control.md R81, its corner cases: each mask bit follows its flag, 111 always branches, 000 never does. -/
def Obligations.BranchMaskBitsFollowTheFlags : Prop :=
  ∀ nzp cond : BitVec 3, OneHot cond →
    (branchTaken nzp cond = true ↔
      (cond = condN ∧ nzp.getLsbD 2 = true) ∨ (cond = condZ ∧ nzp.getLsbD 1 = true) ∨
      (cond = condP ∧ nzp.getLsbD 0 = true)) ∧
    branchTaken 0b111 cond = true ∧ branchTaken 0b000 cond = false

/-- 40_control.md R82 and R83. JSRR reads its base register after the write of R7, as the document orders it (log 21): JSRR
R7 goes on at the next instruction. -/
def Obligations.JumpsAndCallsReachTheirTargets : Prop :=
  (∀ (s : State) (b : Reg), ∃ t, exec (.jmp b) s = .next t ∧ t.pc = s.reg b ∧ SameRegs s t ∧ t.cond = s.cond ∧
    SameMem s t ∧ SameInput s t ∧ SameRun s t) ∧
  (∀ (s : State) (off : BitVec 11), ∃ t, exec (.jsr off) s = .next t ∧ t.pc = s.pc + off.signExtend 16 ∧
    t.reg .r7 = s.pc ∧ SameRegsBut .r7 s t ∧ t.cond = s.cond ∧ SameMem s t ∧ SameInput s t ∧ SameRun s t) ∧
  (∀ (s : State) (b : Reg), ∃ t, exec (.jsrr b) s = .next t ∧ (b ≠ .r7 → t.pc = s.reg b) ∧ (b = .r7 → t.pc = s.pc) ∧
    t.reg .r7 = s.pc ∧ SameRegsBut .r7 s t ∧ t.cond = s.cond ∧ SameMem s t ∧ SameInput s t ∧ SameRun s t)

/-! ### Memory and the arbiter (20_memory.md) -/

/-- 20_memory.md R46: a write sets the word at its address, KBSR and KBDR included, and does nothing else. The next read of
KBSR replaces a value stored there by the poll's result (R43; the whole ready word is the spec's D7: log 5); with a byte
pending, a value stored into KBDR stays unless that poll succeeds (the spec's derivation from R43 and R46; the empty queue is
in `OnlyAKbsrReadPolls`). Memory keeps the model's canonical form (log 20). -/
def Obligations.MemoryWriteSetsExactlyItsWord : Prop :=
  ∀ (s : State) (a v : Word), s.mem.wf = true →
    (memWrite a v s).mem.wf = true ∧
    (∀ b, rawRead b (memWrite a v s) = if b = a then v else rawRead b s) ∧
    memWrite a v s = { s with mem := (memWrite a v s).mem } ∧
    (memRead 0xFE00 (memWrite 0xFE00 v s)).1 = (if pollAnswer s then s.cfg.kbsrReady else 0) ∧
    (∀ b rest, s.inQueue = b :: rest → rawRead 0xFE02 (memRead 0xFE00 (memWrite 0xFE02 v s)).2 =
      (if pollAnswer s then b.setWidth 16 else v))

/-- Memories in canonical form that read the same are the same list: states compare as the machine's memories do (log 20). -/
def Obligations.EqualReadsMakeEqualMemories : Prop :=
  ∀ m m' : Memory, m.wf = true → m'.wf = true → (∀ a : Word, m.read a.toNat = m'.read a.toNat) → m = m'

/-- 20_memory.md R43: only a read of KBSR polls; on a true answer KBSR takes KBSR_READY_VALUE and KBDR the next byte,
zero-extended; on a false one KBSR is cleared; the read returns what the word then holds. R44: a true answer needs a byte. -/
def Obligations.OnlyAKbsrReadPolls : Prop :=
  ∀ s : State, s.mem.wf = true →
    (∀ a, a ≠ 0xFE00 → memRead a s = (rawRead a s, s)) ∧
    (s.inQueue = [] → pollAnswer s = false) ∧
    (∃ t, memRead 0xFE00 s = (rawRead 0xFE00 t, t) ∧
      (∀ b rest, s.inQueue = b :: rest → pollAnswer s = true →
        rawRead 0xFE00 t = s.cfg.kbsrReady ∧ rawRead 0xFE02 t = b.setWidth 16 ∧ t.inQueue = rest) ∧
      (pollAnswer s = false → rawRead 0xFE00 t = 0 ∧ rawRead 0xFE02 t = rawRead 0xFE02 s ∧ t.inQueue = s.inQueue) ∧
      (∀ a, a ≠ 0xFE00 → a ≠ 0xFE02 → rawRead a t = rawRead a s) ∧
      SameRegs s t ∧ t.pc = s.pc ∧ t.cond = s.cond ∧ SameRun s t)

/-- 20_memory.md R44: the answer is the host's to fix while a byte is pending (log 7), and two reads of KBSR that find input
consume two bytes, KBDR then holding the second. -/
def Obligations.TwoKbsrReadsConsumeTwoBytes : Prop :=
  ∀ (s : State) (b1 b2 : Byte) (rest : List Byte) (script : List Bool), s.mem.wf = true → s.inQueue = b1 :: b2 :: rest →
    s.pollScript = true :: true :: script →
    (memRead 0xFE00 s).1 = s.cfg.kbsrReady ∧ rawRead 0xFE02 (memRead 0xFE00 s).2 = b1.setWidth 16 ∧
    rawRead 0xFE02 (memRead 0xFE00 (memRead 0xFE00 s).2).2 = b2.setWidth 16 ∧
    (memRead 0xFE00 (memRead 0xFE00 s).2).2.inQueue = rest

/-! ### Loads and stores (42_load_store.md) -/

/-- 42_load_store.md R89, R91, R90: the address, the word, the flag, and the frame of each load. -/
def Obligations.LoadsDeliverTheArbiteredWord : Prop :=
  (∀ (s : State) (d : Reg) (off : BitVec 9), ∃ t, exec (.ld d off) s = .next t ∧
    LoadsFrom d (s.pc + off.signExtend 16) s t) ∧
  (∀ (s : State) (d b : Reg) (off : BitVec 6), ∃ t, exec (.ldr d b off) s = .next t ∧
    LoadsFrom d (s.reg b + off.signExtend 16) s t) ∧
  (∀ (s : State) (d : Reg) (off : BitVec 9), ∃ t p u, exec (.ldi d off) s = .next t ∧
    memRead (s.pc + off.signExtend 16) s = (p, u) ∧ LoadsFrom d p u t ∧ SameRegs s u ∧ t.pc = s.pc ∧ SameRun s t)

/-- 42_load_store.md R92: LEA writes the address and its flag (as the document says: log 21) and reads no memory. -/
def Obligations.LeaWritesTheAddress : Prop :=
  ∀ (s : State) (d : Reg) (off : BitVec 9), ∃ t, exec (.lea d off) s = .next t ∧
    WritesOnly d (s.pc + off.signExtend 16) s t

/-- 42_load_store.md R93, R95, R94: each store replaces the word at its address and nothing else. STI's pointer read goes
through the arbiter: the store is made in the state after it. -/
def Obligations.StoresReplaceOnlyTheirWord : Prop :=
  ∀ s : State, s.mem.wf = true →
    (∀ (r : Reg) (off : BitVec 9), ∃ t, exec (.st r off) s = .next t ∧
      StoresOnly (s.pc + off.signExtend 16) (s.reg r) s t) ∧
    (∀ (r b : Reg) (off : BitVec 6), ∃ t, exec (.str r b off) s = .next t ∧
      StoresOnly (s.reg b + off.signExtend 16) (s.reg r) s t) ∧
    (∀ (r : Reg) (off : BitVec 9), ∃ t p u, exec (.sti r off) s = .next t ∧
      memRead (s.pc + off.signExtend 16) s = (p, u) ∧ StoresOnly p (s.reg r) u t ∧ SameRegs s t ∧ t.cond = s.cond ∧
      t.pc = s.pc ∧ SameRun s t)

/-- 20_memory.md R54: a load of any address but KBSR gives the word the last store to it wrote. -/
def Obligations.LoadAfterStoreGivesTheStoredWord : Prop :=
  ∀ (s t : State) (r d b : Reg) (off : BitVec 6), s.mem.wf = true →
    s.reg b + off.signExtend 16 ≠ 0xFE00 → exec (.str r b off) s = .next t →
    ∃ u, exec (.ldr d b off) t = .next u ∧ u.reg d = s.reg r ∧ FlagMatches (s.reg r) u.cond ∧ SameMem t u

/-! ### Traps (43_trap.md) -/

/-- 43_trap.md R97, R100, R103: the issuing steps of the two traps that wait. GETC outputs nothing, IN its prompt. -/
def Obligations.InputTrapsEnterTheirWait : Prop :=
  (∀ s : State, ∃ t, exec .trapGetc s = .next t ∧ TrapFrame s t ∧ t.runState = .waitGetc ∧
    t.abortCause = s.abortCause ∧ t.out = s.out) ∧
  (∀ s : State, ∃ t, exec .trapIn s = .next t ∧ TrapFrame s t ∧ t.runState = .waitIn ∧
    t.abortCause = s.abortCause ∧ t.out = s.out ++ s.cfg.inPrompt.map .byte)

/-- 43_trap.md R101, R105: OUT puts out the low byte of R0 and flushes; HALT puts out its notice, flushes and enters HALTED. -/
def Obligations.OutAndHaltDriveTheOutput : Prop :=
  (∀ s : State, ∃ t, exec .trapOut s = .next t ∧ TrapFrame s t ∧ t.runState = s.runState ∧
    t.abortCause = s.abortCause ∧ t.out = s.out ++ [.byte (lo (s.reg .r0)), .flush]) ∧
  (∀ s : State, ∃ t, exec .trapHalt s = .next t ∧ TrapFrame s t ∧ t.runState = .halted ∧
    t.abortCause = s.abortCause ∧ t.out = s.out ++ s.cfg.haltNotice.map .byte ++ [.flush])

/-- 43_trap.md R102: PUTS puts out the low byte of each word (log 13) up to the zero word, which it does not put out, and
flushes; the address wraps (log 14). -/
def Obligations.PutsOutputsTheLowBytesOfTheString : Prop :=
  ∀ (s : State) (k : Nat), PlainString s k → ∃ t, exec .trapPuts s = .next t ∧ TrapFrame s t ∧
    t.runState = s.runState ∧ t.abortCause = s.abortCause ∧
    t.out = s.out ++ (List.range k).map (fun j => .byte (lo (stringWord s j))) ++ [.flush]

/-- 43_trap.md R104: PUTSP puts out two bytes a word, low byte first, a zero high byte left out, and flushes. -/
def Obligations.PutspOutputsBothBytesOfTheString : Prop :=
  ∀ (s : State) (k : Nat), PlainString s k → ∃ t, exec .trapPutsp s = .next t ∧ TrapFrame s t ∧
    t.runState = s.runState ∧ t.abortCause = s.abortCause ∧
    t.out = s.out ++ (List.range k).flatMap (fun j =>
      if hi (stringWord s j) = 0 then [.byte (lo (stringWord s j))]
      else [.byte (lo (stringWord s j)), .byte (hi (stringWord s j))]) ++ [.flush]

/-- 43_trap.md R102, R104 under STRING_READ = raw: a string routine completes exactly when some word of memory is zero, and
hangs exactly when none is (log 14). -/
def Obligations.StringRoutinesHangOnlyWithoutAZeroWord : Prop :=
  ∀ s : State, s.cfg.stringRead = .raw →
    ((∃ t, exec .trapPuts s = .next t) ↔ ∃ a, rawRead a s = 0) ∧
    ((∃ t, exec .trapPutsp s = .next t) ↔ ∃ a, rawRead a s = 0) ∧
    (exec .trapPuts s = .fault .unterminatedString ↔ ∀ a, rawRead a s ≠ 0) ∧
    (exec .trapPutsp s = .fault .unterminatedString ↔ ∀ a, rawRead a s ≠ 0)

/-- 20_memory.md R47, its alternative STRING_READ = arbitered (log 8): a string routine that reads KBSR polls it. With no
byte the string ends there; with one, the low byte of KBSR_READY_VALUE goes out and the walk goes on at 0xFE01. -/
def Obligations.ArbiteredStringsPollAtKbsr : Prop :=
  ∀ s : State, s.mem.wf = true → s.cfg.stringRead = .arbitered → s.reg .r0 = 0xFE00 →
    (s.inQueue = [] → ∃ t, exec .trapPuts s = .next t ∧ t.out = s.out ++ [.flush] ∧ rawRead 0xFE00 t = 0 ∧
      t.reg .r7 = s.pc ∧ t.pc = s.pc ∧ t.cond = s.cond) ∧
    (s.inQueue = [] → ∃ t, exec .trapPutsp s = .next t ∧ t.out = s.out ++ [.flush] ∧ rawRead 0xFE00 t = 0 ∧
      t.reg .r7 = s.pc ∧ t.pc = s.pc ∧ t.cond = s.cond) ∧
    (∀ b rest script, s.inQueue = b :: rest → s.pollScript = true :: script → s.cfg.kbsrReady ≠ 0 →
      rawRead 0xFE01 s = 0 → ∃ t, exec .trapPuts s = .next t ∧
        t.out = s.out ++ [.byte (lo s.cfg.kbsrReady), .flush] ∧ t.inQueue = rest ∧
        rawRead 0xFE02 t = b.setWidth 16 ∧ t.reg .r7 = s.pc ∧ t.pc = s.pc ∧ t.cond = s.cond)

/-- 43_trap.md R107: a TRAP with any other vector writes R7, aborts with the vector recorded, and does nothing else. -/
def Obligations.UnknownTrapVectorAborts : Prop :=
  ∀ (s : State) (v : BitVec 8), (v.toNat < 0x20 ∨ 0x25 < v.toNat) → ∃ t, exec (.trap v) s = .next t ∧ TrapFrame s t ∧
    t.runState = .aborted ∧ t.abortCause = some (.badTrapVector v) ∧ t.out = s.out

/-- 43_trap.md R100: the completing step of GETC. The byte goes to R0 zero-extended (log 9), with its flag; KBSR and KBDR are
left alone; nothing is echoed. -/
def Obligations.GetcCompletesWithTheNextByte : Prop :=
  ∀ (s : State) (b : Byte) (rest : List Byte), s.runState = .waitGetc → s.hostAbort = none → s.inQueue = b :: rest →
    ∃ t, step s = .next t ∧ t.reg .r0 = b.setWidth 16 ∧ t.cond = (if b = 0 then condZ else condP) ∧
      t.runState = .running ∧ t.inQueue = rest ∧ SameRegsBut .r0 s t ∧ t.pc = s.pc ∧ SameMem s t ∧ t.out = s.out ∧
      t.abortCause = s.abortCause ∧ t.hostAbort = none ∧ t.inEnded = s.inEnded ∧ t.pollScript = s.pollScript ∧
      t.pollDraws = s.pollDraws ∧ t.cfg = s.cfg

/-- 43_trap.md R103: the completing step of IN is GETC's, with the echo of the byte and a flush (log 12). -/
def Obligations.InCompletesWithTheNextByteAndItsEcho : Prop :=
  ∀ (s : State) (b : Byte) (rest : List Byte), s.runState = .waitIn → s.hostAbort = none → s.inQueue = b :: rest →
    ∃ t, step s = .next t ∧ t.reg .r0 = b.setWidth 16 ∧ t.cond = (if b = 0 then condZ else condP) ∧
      t.runState = .running ∧ t.inQueue = rest ∧ SameRegsBut .r0 s t ∧ t.pc = s.pc ∧ SameMem s t ∧
      t.out = s.out ++ [.byte b, .flush] ∧
      t.abortCause = s.abortCause ∧ t.hostAbort = none ∧ t.inEnded = s.inEnded ∧ t.pollScript = s.pollScript ∧
      t.pollDraws = s.pollDraws ∧ t.cfg = s.cfg

/-- 20_memory.md R45, 43_trap.md R100, R103: at the end of input under EOF_POLICY = value 0xFFFF, R0 = 0xFFFF and COND = N,
and IN echoes 0xFF (log 11). -/
def Obligations.EndOfInputGivesFFFFUnderThatPolicy : Prop :=
  ∀ s : State, s.hostAbort = none → s.inQueue = [] → s.inEnded = true → s.cfg.eofPolicy = .valueFFFF →
    (s.runState = .waitGetc → ∃ t, step s = .next t ∧ t.reg .r0 = 0xFFFF ∧ t.cond = condN ∧ t.runState = .running ∧
      t.out = s.out ∧ SameRegsBut .r0 s t ∧ t.pc = s.pc ∧ SameMem s t ∧ SameInput s t) ∧
    (s.runState = .waitIn → ∃ t, step s = .next t ∧ t.reg .r0 = 0xFFFF ∧ t.cond = condN ∧ t.runState = .running ∧
      t.out = s.out ++ [.byte 0xFF, .flush] ∧ SameRegsBut .r0 s t ∧ t.pc = s.pc ∧ SameMem s t ∧ SameInput s t)

/-! ### RTI and RES (44_unimplemented.md) -/

/-- 44_unimplemented.md R108, R109: each aborts with its own opcode as the cause (numbers of log 1; an abort as a next
state: log 16). R110: executing either writes no register, memory, COND or output, rolls nothing back, and no instruction is
fetched afterwards; the stop `aborted` that says so is the model's form (log 15). -/
def Obligations.RtiAndResOnlyAbort : Prop :=
  ∀ (s : State) (i : Instr), i = .rti ∨ i = .res → ∃ t, exec i s = .next t ∧ t.runState = .aborted ∧
    (i = .rti → t.abortCause = some (.illegalOpcode 0x8)) ∧ (i = .res → t.abortCause = some (.illegalOpcode 0xD)) ∧
    SameRegs s t ∧ t.pc = s.pc ∧ t.cond = s.cond ∧ SameMem s t ∧ t.out = s.out ∧ SameInput s t ∧
    t.inEnded = s.inEnded ∧ t.hostAbort = s.hostAbort ∧ t.cfg = s.cfg ∧ step t = .fault .aborted

/-! ### The step (10_state.md, 60_exceptions.md) -/

/-- 10_state.md R27: fetch through the arbiter, increment the pc, execute what the word decodes to. A pending host abort with
a count left comes after (log 17). -/
def Obligations.StepRunsTheDecodedInstruction : Prop :=
  ∀ s : State, s.runState = .running →
    (s.hostAbort = none →
      step s = exec (decode (memRead s.pc s).1) { (memRead s.pc s).2 with pc := s.pc + 1 }) ∧
    (s.hostAbort = none → s.pc ≠ 0xFE00 → step s = exec (decode (rawRead s.pc s)) { s with pc := s.pc + 1 }) ∧
    (∀ n, s.hostAbort = some (n + 1) →
      step s = exec (decode (memRead s.pc { s with hostAbort := some n }).1)
        { (memRead s.pc { s with hostAbort := some n }).2 with pc := s.pc + 1 })

/-- 60_exceptions.md R115 item 1 and 20_memory.md R57: a fetch at KBSR polls and executes the status word. With no byte it
is 0x0000, a no-op; with a byte and KBSR_READY_VALUE = 0x8000 (log 5) it is RTI, which aborts. -/
def Obligations.FetchAtKbsrExecutesTheStatusWord : Prop :=
  ∀ s : State, Runs s → s.mem.wf = true → s.pc = 0xFE00 →
    (s.inQueue = [] → ∃ t, step s = .next t ∧ t.pc = 0xFE01 ∧ t.runState = .running ∧ rawRead 0xFE00 t = 0 ∧
      SameRegs s t ∧ t.cond = s.cond) ∧
    (∀ b rest script, s.inQueue = b :: rest → s.pollScript = true :: script → s.cfg.kbsrReady = 0x8000 →
      ∃ t, step s = .next t ∧ t.pc = 0xFE01 ∧ t.runState = .aborted ∧ t.abortCause = some (.illegalOpcode 0x8) ∧
        rawRead 0xFE00 t = 0x8000 ∧ rawRead 0xFE02 t = b.setWidth 16 ∧ t.inQueue = rest)

/-- 20_memory.md R57, 70_reset_and_hazards.md R138: a store is visible to the very next fetch. -/
def Obligations.AStoreIsSeenByTheNextFetch : Prop :=
  ∀ (s t : State) (r b : Reg) (off : BitVec 6), s.mem.wf = true → Runs s → s.pc ≠ 0xFE00 →
    s.reg b + off.signExtend 16 = s.pc → exec (.str r b off) s = .next t →
    step t = exec (decode (s.reg r)) { t with pc := t.pc + 1 }

/-- 10_state.md R17: the fetch increments the pc by one, wrapping; afterwards only a taken BR, JMP, JSR and JSRR write it. -/
def Obligations.OnlyControlTransfersWriteThePc : Prop :=
  (∀ s : State, (fetch s).2.pc.toNat = (s.pc.toNat + 1) % 65536) ∧
  (∀ (i : Instr) (s t : State), exec i s = .next t → writesPc i = false → t.pc = s.pc) ∧
  (∀ (nzp : BitVec 3) (off : BitVec 9) (s t : State), exec (.br nzp off) s = .next t → nzp &&& s.cond = 0 → t.pc = s.pc)

/-- 10_state.md R28: in HALTED and ABORTED the block has no step; a wait with no byte holds, and under EOF_POLICY = stuck no
byte the host tries to supply after the end of input lifts the hold (logs 11, 15). -/
def Obligations.TerminalAndHoldingStatesHaveNoStep : Prop :=
  (∀ s : State, s.runState = .halted → step s = .fault .halted) ∧
  (∀ s : State, s.runState = .aborted → step s = .fault .aborted) ∧
  (∀ s : State, s.runState = .waitGetc ∨ s.runState = .waitIn → s.hostAbort = none → s.inQueue = [] →
    s.inEnded = false → step s = .fault .waitingForInput) ∧
  (∀ s : State, s.runState = .waitGetc ∨ s.runState = .waitIn → s.hostAbort = none → s.inQueue = [] →
    s.inEnded = true → s.cfg.eofPolicy = .stuck →
    step s = .fault .inputEnded ∧ ∀ b, step (hostSupply b s) = .fault .inputEnded)

/-- 60_exceptions.md R118: at a step boundary or in a wait the host may end the run; the block enters ABORTED with cause
EXTERNAL_ABORT, keeps everything else, and takes no further step; the stop `aborted` that says so is the model's form (log
15). A hold cannot delay a counted request: the model's schedule (R115 item 3: log 17). -/
def Obligations.HostAbortEndsTheRun : Prop :=
  ∀ (s : State) (n : Nat), ¬ Terminal s →
    (∃ t, step (hostRequestAbort 0 s) = .next t ∧ t.runState = .aborted ∧ t.abortCause = some .externalAbort ∧
      SameRegs s t ∧ t.pc = s.pc ∧ t.cond = s.cond ∧ SameMem s t ∧ t.out = s.out ∧ SameInput s t ∧
      step t = .fault .aborted) ∧
    (s.runState ≠ .running → s.inQueue = [] → s.inEnded = false ∨ s.cfg.eofPolicy = .stuck →
      ∃ t, step (hostRequestAbort n s) = .next t ∧ t.runState = .aborted ∧ t.abortCause = some .externalAbort)

/-- 60_exceptions.md R113: no instruction but RTI, RES and TRAP aborts, each raises its own cause only, and no instruction
but HALT enters HALTED; every instruction but the string routines completes from every state. -/
def Obligations.EachInstructionEndsTheRunOnlyAsListed : Prop :=
  (∀ (i : Instr) (s : State), i.wf = true → isString i = false → ∃ t, exec i s = .next t) ∧
  (∀ (i : Instr) (s t : State), i.wf = true → s.runState = .running → exec i s = .next t →
    (t.runState = .aborted ↔ i = .rti ∨ i = .res ∨ ∃ v, i = .trap v) ∧
    (t.runState = .halted ↔ i = .trapHalt) ∧
    (t.runState = .aborted → (i = .rti → t.abortCause = some (.illegalOpcode 0x8)) ∧
      (i = .res → t.abortCause = some (.illegalOpcode 0xD)) ∧
      (∀ v, i = .trap v → t.abortCause = some (.badTrapVector v))))

/-- 60_exceptions.md R112: when an instruction aborts the run, "pc - 1 is the address of the instruction", and nothing is
put out by the aborting step. -/
def Obligations.AbortsLeaveThePcPastTheirInstruction : Prop :=
  ∀ s t : State, Runs s → step s = .next t → t.runState = .aborted →
    t.pc - 1 = s.pc ∧ t.out = s.out ∧
      ((∃ op, t.abortCause = some (.illegalOpcode op) ∧ (op = 0x8 ∨ op = 0xD)) ∨
       (∃ v, t.abortCause = some (.badTrapVector v) ∧ serviceVector v = false ∧ t.reg .r7 = t.pc))

/-! ### Whole-machine rules -/

/-- 10_state.md R32 (logs 2, 3, 4, 5, 7, 11, 17): what reset leaves, for every value of the parameters, and the defaults. -/
def Obligations.ResetLeavesTheListedValues : Prop :=
  (∀ p : Params, (∀ r, (State.resetWith p).reg r = p.gprReset) ∧ (State.resetWith p).pc = p.pcStart ∧
    (State.resetWith p).cond = p.condReset ∧ (State.resetWith p).runState = .running ∧
    (State.resetWith p).abortCause = none ∧ (State.resetWith p).out = [] ∧
    (∀ a, rawRead a (State.resetWith p) = 0)) ∧
  State.reset = State.resetWith State.reset.cfg ∧ State.reset.cfg.pcStart = 0x3000 ∧ State.reset.cfg.gprReset = 0 ∧
  State.reset.cfg.condReset = condZ ∧ State.reset.cfg.kbsrReady = 0x8000 ∧ State.reset.cfg.wf = true

/-- The invariant holds at reset, for every legal value of the parameters. -/
def Obligations.ResetMeetsTheInvariant : Prop :=
  Inv State.reset ∧ ∀ p : Params, p.wf = true → Inv (State.resetWith p)

/-- Every step keeps the invariant: memory canonical, "exactly one flag holds at any time" (10_state.md R18), and a cause is
recorded exactly in ABORTED and is one that 60_exceptions.md R112 lists. -/
def Obligations.EveryStepKeepsTheInvariant : Prop :=
  ∀ s t : State, Inv s → step s = .next t → Inv t

/-- 10_state.md R21: which instruction writes which general register, and with what where the rule says it (R7). -/
def Obligations.OnlyTheListedInstructionsWriteRegisters : Prop :=
  (∀ (i : Instr) (s t : State) (r : Reg), exec i s = .next t → r ∉ destinations i → t.reg r = s.reg r) ∧
  (∀ (i : Instr) (s t : State), exec i s = .next t → isTrap i = true ∨ (∃ off, i = .jsr off) ∨ (∃ b, i = .jsrr b) →
    t.reg .r7 = s.pc) ∧
  (∀ (s t : State) (r : Reg), s.runState ≠ .running → step s = .next t → r ≠ .r0 → t.reg r = s.reg r)

/-- 10_state.md R20, the writers: COND follows the destination register of the instructions that define one, and no other
instruction writes it. -/
def Obligations.FlagsFollowTheDestinationRegister : Prop :=
  ∀ (i : Instr) (s t : State), exec i s = .next t →
    (setsFlags i = false → t.cond = s.cond) ∧
    (setsFlags i = true → ∃ d, destinations i = [d] ∧ FlagMatches (t.reg d) t.cond)

/-- 10_state.md R20, the reader: "The only reader of COND is BR". Two runs of any other instruction from states that differ
in COND alone end alike, but for COND itself where the instruction does not write it. -/
def Obligations.OnlyBranchesReadTheFlags : Prop :=
  ∀ (i : Instr) (s : State) (c : BitVec 3), (∀ nzp off, i ≠ .br nzp off) →
    match exec i s, exec i { s with cond := c } with
    | .next t, .next t' => t' = { t with cond := t'.cond } ∧ (t'.cond = t.cond ∨ (t.cond = s.cond ∧ t'.cond = c))
    | .fault f, .fault f' => f = f'
    | _, _ => False

/-- Memory's frame over all instructions (42_load_store.md, 20_memory.md R59): a word changes only at the address the
instruction stores to, or at KBSR and KBDR where the instruction reads through the arbiter. -/
def Obligations.MemoryChangesOnlyWhereStoredOrPolled : Prop :=
  ∀ (i : Instr) (s t : State) (a : Word), i.wf = true → exec i s = .next t → storeTarget i s ≠ some a →
    (readsArbitered i s = false ∨ (a ≠ 0xFE00 ∧ a ≠ 0xFE02)) → rawRead a t = rawRead a s

/-- 43_trap.md R106: only the trap routines put bytes out; and a step only ever appends to the output (10_state.md R30). -/
def Obligations.OnlyTrapsAppendToTheOutput : Prop :=
  (∀ s t : State, step s = .next t → ∃ l, t.out = s.out ++ l) ∧
  (∀ (i : Instr) (s t : State), isTrap i = false → exec i s = .next t → t.out = s.out)

/-- 10_state.md R30: "Nothing the CORE does reads `out`". A step from the same state with another output history does the
same and appends the same calls. -/
def Obligations.NothingReadsTheOutput : Prop :=
  ∀ (s : State) (o : List OutEvent),
    match step s, step { s with out := o } with
    | .next t, .next t' => ∃ l, t.out = s.out ++ l ∧ t' = { t with out := o ++ l }
    | .fault f, .fault f' => f = f'
    | _, _ => False

/-- 10_state.md R29, 00_scope.md R7: a step takes input only from the head of the queue, and changes neither a parameter nor
the host's end-of-input mark. -/
def Obligations.InputIsTakenFromTheHeadAndParametersStay : Prop :=
  ∀ s t : State, step s = .next t →
    (∃ l, s.inQueue = l ++ t.inQueue) ∧ t.cfg = s.cfg ∧ t.inEnded = s.inEnded

/-! ### Boot (70_reset_and_hazards.md) -/

/-- 70_reset_and_hazards.md R134 and 95_test_vectors.md T3: an image reads back word for word as far as memory goes, and
every other word stays. -/
def Obligations.LoadedImagesReadBack : Prop :=
  ∀ (o : Word) (ws : List Word) (m : Memory), m.wf = true →
    (loadImage (imageBytes o ws) m).wf = true ∧
    (∀ (k : Nat) (h : k < ws.length), o.toNat + k < 65536 → (loadImage (imageBytes o ws) m).read (o.toNat + k) = ws[k]) ∧
    (∀ a : Nat, a < o.toNat ∨ o.toNat + ws.length ≤ a → (loadImage (imageBytes o ws) m).read a = m.read a)

/-- 70_reset_and_hazards.md R134, the edges the spec decides (D19-D21: log 18): words past 0xFFFF are discarded, a trailing
odd byte is ignored, an image shorter than two bytes writes nothing. -/
def Obligations.ImageEdgesAreDiscarded : Prop :=
  (∀ (o : Word) (ws extra : List Word) (m : Memory), o.toNat + ws.length = 65536 →
    loadImage (imageBytes o (ws ++ extra)) m = loadImage (imageBytes o ws) m) ∧
  (∀ (o : Word) (ws : List Word) (b : Byte) (m : Memory),
    loadImage (imageBytes o ws ++ [b]) m = loadImage (imageBytes o ws) m) ∧
  (∀ (bs : List Byte) (m : Memory), bs.length < 2 → loadImage bs m = m)

/-- 70_reset_and_hazards.md R135: where two images overlap, the later one's words stand; elsewhere the earlier one's do. -/
def Obligations.LaterImagesOverwriteEarlierOnes : Prop :=
  ∀ (p : Params) (o1 o2 : Word) (ws1 ws2 : List Word),
    ∃ s, boot p [⟨imageBytes o1 ws1, true⟩, ⟨imageBytes o2 ws2, true⟩] = .started s ∧
      (∀ (k : Nat) (h : k < ws2.length), o2.toNat + k < 65536 → s.mem.read (o2.toNat + k) = ws2[k]) ∧
      (∀ (k : Nat) (h : k < ws1.length), o1.toNat + k < 65536 →
        (o1.toNat + k < o2.toNat ∨ o2.toNat + ws2.length ≤ o1.toNat + k) → s.mem.read (o1.toNat + k) = ws1[k])

/-- 70_reset_and_hazards.md R132, R136: the block starts exactly when every image was read; the preload touches memory alone;
a failed load undoes nothing that was written before. -/
def Obligations.BootStartsExactlyWhenEveryImageLoads : Prop :=
  (∀ (p : Params) (images : List ImageSource), (∀ i ∈ images, i.readable = true) →
    ∃ s, boot p images = .started s ∧ s = { State.resetWith p with mem := s.mem } ∧ s.mem.wf = true ∧
      s.mem = images.foldl (fun m i => loadImage i.bytes m) []) ∧
  (∀ (p : Params) (before : List ImageSource) (bad : ImageSource) (after : List ImageSource),
    (∀ i ∈ before, i.readable = true) → bad.readable = false →
    ∃ s, boot p (before ++ bad :: after) = .neverStarted s ∧ s = { State.resetWith p with mem := s.mem } ∧
      s.mem = (before ++ [bad]).foldl (fun m i => loadImage i.bytes m) [])

/-- A word placed where the next step fetches is the instruction that step runs (log 18): the pc, or the next address for a
pc at KBSR. -/
def Obligations.APlacedWordRunsNext : Prop :=
  ∀ (s : State) (w : Word), s.mem.wf = true →
    ∃ u, step (s.withFetchWord 16 w.toNat) = exec (decode w) u ∧
      u.pc = (if s.pc = 0xFE00 then 0xFE02 else s.pc + 1) ∧ u.runState = .running ∧ SameRegs s u ∧ u.cond = s.cond ∧
      (∀ a, rawRead a u = if a = u.pc - 1 then w else rawRead a s) ∧ SameInput s u ∧ u.out = s.out
end

