-- ==== Sys2Proof/Laws/Memory.lean ====
section
/-! SUPPORT. Memory laws: every memory operation keeps the canonical form, and a read after a write. -/

namespace Sys2Proof.Machine

@[simp] theorem Memory.read_nil (a : Nat) : Memory.read [] a = Memory.unlisted := rfl

theorem Memory.read_consCell (a : Nat) (v : Word) (m : Memory) (b : Nat) (hm : b = a → m.read b = Memory.unlisted) :
    (Memory.consCell a v m).read b = if b = a then v else m.read b := by
  unfold Memory.consCell
  by_cases hv : v = Memory.unlisted
  · by_cases hb : b = a <;> simp [hv, hb]
    exact hb ▸ hm hb
  · by_cases hb : b = a
    · simp [hv, hb, Memory.read]
    · simp [hv, hb, Memory.read, Ne.symm hb]

/-- Weakening the lower bound of the canonical form. -/
theorem Memory.wfFrom_mono {lo lo' : Nat} {m : Memory} (h : lo' ≤ lo) (hm : Memory.wfFrom lo m = true) :
    Memory.wfFrom lo' m = true := by
  cases m with
  | nil => rfl
  | cons c rest =>
    simp only [Memory.wfFrom, Bool.and_eq_true, decide_eq_true_eq] at hm ⊢
    exact ⟨⟨⟨by omega, hm.1.1.2⟩, hm.1.2⟩, hm.2⟩

/-- Below the first listed address nothing is listed. -/
theorem Memory.read_below {lo a : Nat} {m : Memory} (hm : Memory.wfFrom lo m = true) (h : a < lo) :
    m.read a = Memory.unlisted := by
  induction m generalizing lo with
  | nil => rfl
  | cons c rest ih =>
    simp only [Memory.wfFrom, Bool.and_eq_true, decide_eq_true_eq] at hm
    simp only [Memory.read]
    rw [if_neg (by omega)]
    exact ih hm.2 (by omega)

theorem Memory.consCell_wfFrom {lo a : Nat} {v : Word} {m : Memory} (hlo : lo ≤ a) (ha : a < Config.memWords)
    (hm : Memory.wfFrom (a + 1) m = true) : Memory.wfFrom lo (Memory.consCell a v m) = true := by
  unfold Memory.consCell
  split
  · exact Memory.wfFrom_mono (by omega) hm
  · simp only [Memory.wfFrom, Bool.and_eq_true, decide_eq_true_eq]
    exact ⟨⟨⟨hlo, ha⟩, by simpa using ‹¬ v = _›⟩, hm⟩

theorem Memory.write_wfFrom {lo a : Nat} {v : Word} {m : Memory} (hlo : lo ≤ a) (ha : a < Config.memWords)
    (hm : Memory.wfFrom lo m = true) : Memory.wfFrom lo (m.write a v) = true := by
  induction m generalizing lo with
  | nil => exact Memory.consCell_wfFrom hlo ha rfl
  | cons c rest ih =>
    have h := hm
    simp only [Memory.wfFrom, Bool.and_eq_true, decide_eq_true_eq] at h
    simp only [Memory.write]
    split
    · exact Memory.consCell_wfFrom hlo ha (by
        simp only [Memory.wfFrom, Bool.and_eq_true, decide_eq_true_eq]
        exact ⟨⟨⟨by omega, h.1.1.2⟩, h.1.2⟩, h.2⟩)
    · split
      · exact Memory.consCell_wfFrom hlo ha (by simpa [‹a = c.1›] using h.2)
      · simp only [Memory.wfFrom, Bool.and_eq_true, decide_eq_true_eq]
        exact ⟨h.1, ih (by omega) h.2⟩

/-- A write keeps the canonical form. -/
theorem Memory.write_wf {m : Memory} (a : Word) (v : Word) (hm : m.wf = true) : (m.write a.toNat v).wf = true :=
  Memory.write_wfFrom (Nat.zero_le _) a.isLt hm

/-- A read after a write, in the canonical form. -/
theorem Memory.read_write {lo : Nat} {m : Memory} (hm : Memory.wfFrom lo m = true) (a : Nat) (v : Word) (b : Nat) :
    (m.write a v).read b = if b = a then v else m.read b := by
  induction m generalizing lo with
  | nil => exact Memory.read_consCell a v [] b (fun _ => rfl)
  | cons c rest ih =>
    have h := hm
    simp only [Memory.wfFrom, Bool.and_eq_true, decide_eq_true_eq] at h
    simp only [Memory.write]
    split
    · refine Memory.read_consCell a v (c :: rest) b (fun hb => ?_)
      exact Memory.read_below (lo := c.1) (by
        simp only [Memory.wfFrom, Bool.and_eq_true, decide_eq_true_eq]
        exact ⟨⟨⟨le_refl _, h.1.1.2⟩, h.1.2⟩, h.2⟩) (by omega)
    · split
      · subst a
        rw [Memory.read_consCell c.1 v rest b (fun hb => hb ▸ Memory.read_below h.2 (by omega))]
        by_cases hb : b = c.1
        · simp [hb]
        · simp [hb, Memory.read, Ne.symm hb]
      · simp only [Memory.read, ih h.2]
        by_cases hb : c.1 = b
        · simp [hb, show ¬ b = a by omega]
        · simp [hb]

/-- A write elsewhere leaves a read alone; this needs no canonical form. -/
theorem Memory.read_write_ne (m : Memory) {a b : Nat} (v : Word) (h : b ≠ a) : (m.write a v).read b = m.read b := by
  induction m with
  | nil =>
    have := Memory.read_consCell a v [] b (fun _ => rfl)
    rw [if_neg h] at this
    exact this
  | cons c rest ih =>
    simp only [Memory.write]
    split
    · simpa [h] using Memory.read_consCell a v (c :: rest) b (fun hb => absurd hb h)
    · split
      · rw [Memory.read_consCell a v rest b (fun hb => absurd hb h)]
        simp [h, Memory.read, ‹a = c.1› ▸ Ne.symm h]
      · simp [Memory.read, ih]

theorem loadWords_wf {m : Memory} (a : Nat) (bs : List Byte) (hm : m.wf = true) : (loadWords a bs m).wf = true := by
  induction a, bs, m using loadWords.induct with
  | case1 a hi lo rest m h => simpa [loadWords, h] using hm
  | case2 a hi lo rest m h ih =>
    rw [loadWords, if_neg h]
    exact ih (Memory.write_wfFrom (Nat.zero_le _) (by simp [Config.memWords]; omega) hm)
  | case3 a bs m h => rwa [loadWords.eq_2 _ _ _ h]

/-- The image loader keeps the canonical form. -/
theorem loadImage_wf {m : Memory} (bs : List Byte) (hm : m.wf = true) : (loadImage bs m).wf = true := by
  unfold loadImage
  split
  · exact loadWords_wf _ _ hm
  · exact hm

end Sys2Proof.Machine
end

