-- ==== Sys2Proof/Laws/State.lean ====
section
/-! SUPPORT. One lemma per field per update of the state, each true by unfolding, and what a register reads after each
update, so that no later proof unfolds a record update. -/

namespace Sys2Proof.Machine

/-! ### setReg -/

@[simp] theorem setReg_regs (r : Reg) (v : Word) (s : State) : (State.setReg r v s).regs = s.regs.set r v := rfl
@[simp] theorem setReg_pc (r : Reg) (v : Word) (s : State) : (State.setReg r v s).pc = s.pc := rfl
@[simp] theorem setReg_cond (r : Reg) (v : Word) (s : State) : (State.setReg r v s).cond = s.cond := rfl
@[simp] theorem setReg_runState (r : Reg) (v : Word) (s : State) : (State.setReg r v s).runState = s.runState := rfl
@[simp] theorem setReg_abortCause (r : Reg) (v : Word) (s : State) : (State.setReg r v s).abortCause = s.abortCause := rfl
@[simp] theorem setReg_mem (r : Reg) (v : Word) (s : State) : (State.setReg r v s).mem = s.mem := rfl
@[simp] theorem setReg_inQueue (r : Reg) (v : Word) (s : State) : (State.setReg r v s).inQueue = s.inQueue := rfl
@[simp] theorem setReg_inEnded (r : Reg) (v : Word) (s : State) : (State.setReg r v s).inEnded = s.inEnded := rfl
@[simp] theorem setReg_out (r : Reg) (v : Word) (s : State) : (State.setReg r v s).out = s.out := rfl
@[simp] theorem setReg_hostAbort (r : Reg) (v : Word) (s : State) : (State.setReg r v s).hostAbort = s.hostAbort := rfl
@[simp] theorem setReg_pollScript (r : Reg) (v : Word) (s : State) : (State.setReg r v s).pollScript = s.pollScript := rfl
@[simp] theorem setReg_pollDraws (r : Reg) (v : Word) (s : State) : (State.setReg r v s).pollDraws = s.pollDraws := rfl
@[simp] theorem setReg_cfg (r : Reg) (v : Word) (s : State) : (State.setReg r v s).cfg = s.cfg := rfl
@[simp] theorem setReg_rawRead (r : Reg) (v : Word) (s : State) (x : Word) : rawRead x (State.setReg r v s) = rawRead x s := rfl

/-! ### setPc -/

@[simp] theorem setPc_regs (v : Word) (s : State) : (State.setPc v s).regs = s.regs := rfl
@[simp] theorem setPc_pc (v : Word) (s : State) : (State.setPc v s).pc = v := rfl
@[simp] theorem setPc_cond (v : Word) (s : State) : (State.setPc v s).cond = s.cond := rfl
@[simp] theorem setPc_runState (v : Word) (s : State) : (State.setPc v s).runState = s.runState := rfl
@[simp] theorem setPc_abortCause (v : Word) (s : State) : (State.setPc v s).abortCause = s.abortCause := rfl
@[simp] theorem setPc_mem (v : Word) (s : State) : (State.setPc v s).mem = s.mem := rfl
@[simp] theorem setPc_inQueue (v : Word) (s : State) : (State.setPc v s).inQueue = s.inQueue := rfl
@[simp] theorem setPc_inEnded (v : Word) (s : State) : (State.setPc v s).inEnded = s.inEnded := rfl
@[simp] theorem setPc_out (v : Word) (s : State) : (State.setPc v s).out = s.out := rfl
@[simp] theorem setPc_hostAbort (v : Word) (s : State) : (State.setPc v s).hostAbort = s.hostAbort := rfl
@[simp] theorem setPc_pollScript (v : Word) (s : State) : (State.setPc v s).pollScript = s.pollScript := rfl
@[simp] theorem setPc_pollDraws (v : Word) (s : State) : (State.setPc v s).pollDraws = s.pollDraws := rfl
@[simp] theorem setPc_cfg (v : Word) (s : State) : (State.setPc v s).cfg = s.cfg := rfl
@[simp] theorem setPc_reg (v : Word) (s : State) (q : Reg) : (State.setPc v s).reg q = s.reg q := rfl
@[simp] theorem setPc_rawRead (v : Word) (s : State) (x : Word) : rawRead x (State.setPc v s) = rawRead x s := rfl

/-! ### setRun -/

@[simp] theorem setRun_regs (r : RunState) (s : State) : (State.setRun r s).regs = s.regs := rfl
@[simp] theorem setRun_pc (r : RunState) (s : State) : (State.setRun r s).pc = s.pc := rfl
@[simp] theorem setRun_cond (r : RunState) (s : State) : (State.setRun r s).cond = s.cond := rfl
@[simp] theorem setRun_runState (r : RunState) (s : State) : (State.setRun r s).runState = r := rfl
@[simp] theorem setRun_abortCause (r : RunState) (s : State) : (State.setRun r s).abortCause = s.abortCause := rfl
@[simp] theorem setRun_mem (r : RunState) (s : State) : (State.setRun r s).mem = s.mem := rfl
@[simp] theorem setRun_inQueue (r : RunState) (s : State) : (State.setRun r s).inQueue = s.inQueue := rfl
@[simp] theorem setRun_inEnded (r : RunState) (s : State) : (State.setRun r s).inEnded = s.inEnded := rfl
@[simp] theorem setRun_out (r : RunState) (s : State) : (State.setRun r s).out = s.out := rfl
@[simp] theorem setRun_hostAbort (r : RunState) (s : State) : (State.setRun r s).hostAbort = s.hostAbort := rfl
@[simp] theorem setRun_pollScript (r : RunState) (s : State) : (State.setRun r s).pollScript = s.pollScript := rfl
@[simp] theorem setRun_pollDraws (r : RunState) (s : State) : (State.setRun r s).pollDraws = s.pollDraws := rfl
@[simp] theorem setRun_cfg (r : RunState) (s : State) : (State.setRun r s).cfg = s.cfg := rfl
@[simp] theorem setRun_reg (r : RunState) (s : State) (q : Reg) : (State.setRun r s).reg q = s.reg q := rfl
@[simp] theorem setRun_rawRead (r : RunState) (s : State) (x : Word) : rawRead x (State.setRun r s) = rawRead x s := rfl

/-! ### memWrite -/

@[simp] theorem memWrite_regs (a v : Word) (s : State) : (memWrite a v s).regs = s.regs := rfl
@[simp] theorem memWrite_pc (a v : Word) (s : State) : (memWrite a v s).pc = s.pc := rfl
@[simp] theorem memWrite_cond (a v : Word) (s : State) : (memWrite a v s).cond = s.cond := rfl
@[simp] theorem memWrite_runState (a v : Word) (s : State) : (memWrite a v s).runState = s.runState := rfl
@[simp] theorem memWrite_abortCause (a v : Word) (s : State) : (memWrite a v s).abortCause = s.abortCause := rfl
@[simp] theorem memWrite_mem (a v : Word) (s : State) : (memWrite a v s).mem = s.mem.write a.toNat v := rfl
@[simp] theorem memWrite_inQueue (a v : Word) (s : State) : (memWrite a v s).inQueue = s.inQueue := rfl
@[simp] theorem memWrite_inEnded (a v : Word) (s : State) : (memWrite a v s).inEnded = s.inEnded := rfl
@[simp] theorem memWrite_out (a v : Word) (s : State) : (memWrite a v s).out = s.out := rfl
@[simp] theorem memWrite_hostAbort (a v : Word) (s : State) : (memWrite a v s).hostAbort = s.hostAbort := rfl
@[simp] theorem memWrite_pollScript (a v : Word) (s : State) : (memWrite a v s).pollScript = s.pollScript := rfl
@[simp] theorem memWrite_pollDraws (a v : Word) (s : State) : (memWrite a v s).pollDraws = s.pollDraws := rfl
@[simp] theorem memWrite_cfg (a v : Word) (s : State) : (memWrite a v s).cfg = s.cfg := rfl
@[simp] theorem memWrite_reg (a v : Word) (s : State) (q : Reg) : (memWrite a v s).reg q = s.reg q := rfl

/-! ### outByte -/

@[simp] theorem outByte_regs (b : Byte) (s : State) : (outByte b s).regs = s.regs := rfl
@[simp] theorem outByte_pc (b : Byte) (s : State) : (outByte b s).pc = s.pc := rfl
@[simp] theorem outByte_cond (b : Byte) (s : State) : (outByte b s).cond = s.cond := rfl
@[simp] theorem outByte_runState (b : Byte) (s : State) : (outByte b s).runState = s.runState := rfl
@[simp] theorem outByte_abortCause (b : Byte) (s : State) : (outByte b s).abortCause = s.abortCause := rfl
@[simp] theorem outByte_mem (b : Byte) (s : State) : (outByte b s).mem = s.mem := rfl
@[simp] theorem outByte_inQueue (b : Byte) (s : State) : (outByte b s).inQueue = s.inQueue := rfl
@[simp] theorem outByte_inEnded (b : Byte) (s : State) : (outByte b s).inEnded = s.inEnded := rfl
@[simp] theorem outByte_out (b : Byte) (s : State) : (outByte b s).out = s.out ++ [.byte b] := rfl
@[simp] theorem outByte_hostAbort (b : Byte) (s : State) : (outByte b s).hostAbort = s.hostAbort := rfl
@[simp] theorem outByte_pollScript (b : Byte) (s : State) : (outByte b s).pollScript = s.pollScript := rfl
@[simp] theorem outByte_pollDraws (b : Byte) (s : State) : (outByte b s).pollDraws = s.pollDraws := rfl
@[simp] theorem outByte_cfg (b : Byte) (s : State) : (outByte b s).cfg = s.cfg := rfl
@[simp] theorem outByte_reg (b : Byte) (s : State) (q : Reg) : (outByte b s).reg q = s.reg q := rfl
@[simp] theorem outByte_rawRead (b : Byte) (s : State) (x : Word) : rawRead x (outByte b s) = rawRead x s := rfl

/-! ### outBytes -/

@[simp] theorem outBytes_regs (bs : List Byte) (s : State) : (outBytes bs s).regs = s.regs := rfl
@[simp] theorem outBytes_pc (bs : List Byte) (s : State) : (outBytes bs s).pc = s.pc := rfl
@[simp] theorem outBytes_cond (bs : List Byte) (s : State) : (outBytes bs s).cond = s.cond := rfl
@[simp] theorem outBytes_runState (bs : List Byte) (s : State) : (outBytes bs s).runState = s.runState := rfl
@[simp] theorem outBytes_abortCause (bs : List Byte) (s : State) : (outBytes bs s).abortCause = s.abortCause := rfl
@[simp] theorem outBytes_mem (bs : List Byte) (s : State) : (outBytes bs s).mem = s.mem := rfl
@[simp] theorem outBytes_inQueue (bs : List Byte) (s : State) : (outBytes bs s).inQueue = s.inQueue := rfl
@[simp] theorem outBytes_inEnded (bs : List Byte) (s : State) : (outBytes bs s).inEnded = s.inEnded := rfl
@[simp] theorem outBytes_out (bs : List Byte) (s : State) : (outBytes bs s).out = s.out ++ bs.map .byte := rfl
@[simp] theorem outBytes_hostAbort (bs : List Byte) (s : State) : (outBytes bs s).hostAbort = s.hostAbort := rfl
@[simp] theorem outBytes_pollScript (bs : List Byte) (s : State) : (outBytes bs s).pollScript = s.pollScript := rfl
@[simp] theorem outBytes_pollDraws (bs : List Byte) (s : State) : (outBytes bs s).pollDraws = s.pollDraws := rfl
@[simp] theorem outBytes_cfg (bs : List Byte) (s : State) : (outBytes bs s).cfg = s.cfg := rfl
@[simp] theorem outBytes_reg (bs : List Byte) (s : State) (q : Reg) : (outBytes bs s).reg q = s.reg q := rfl
@[simp] theorem outBytes_rawRead (bs : List Byte) (s : State) (x : Word) : rawRead x (outBytes bs s) = rawRead x s := rfl

/-! ### outFlush -/

@[simp] theorem outFlush_regs (s : State) : (outFlush s).regs = s.regs := rfl
@[simp] theorem outFlush_pc (s : State) : (outFlush s).pc = s.pc := rfl
@[simp] theorem outFlush_cond (s : State) : (outFlush s).cond = s.cond := rfl
@[simp] theorem outFlush_runState (s : State) : (outFlush s).runState = s.runState := rfl
@[simp] theorem outFlush_abortCause (s : State) : (outFlush s).abortCause = s.abortCause := rfl
@[simp] theorem outFlush_mem (s : State) : (outFlush s).mem = s.mem := rfl
@[simp] theorem outFlush_inQueue (s : State) : (outFlush s).inQueue = s.inQueue := rfl
@[simp] theorem outFlush_inEnded (s : State) : (outFlush s).inEnded = s.inEnded := rfl
@[simp] theorem outFlush_out (s : State) : (outFlush s).out = s.out ++ [.flush] := rfl
@[simp] theorem outFlush_hostAbort (s : State) : (outFlush s).hostAbort = s.hostAbort := rfl
@[simp] theorem outFlush_pollScript (s : State) : (outFlush s).pollScript = s.pollScript := rfl
@[simp] theorem outFlush_pollDraws (s : State) : (outFlush s).pollDraws = s.pollDraws := rfl
@[simp] theorem outFlush_cfg (s : State) : (outFlush s).cfg = s.cfg := rfl
@[simp] theorem outFlush_reg (s : State) (q : Reg) : (outFlush s).reg q = s.reg q := rfl
@[simp] theorem outFlush_rawRead (s : State) (x : Word) : rawRead x (outFlush s) = rawRead x s := rfl

/-! ### raiseAbort -/

@[simp] theorem raiseAbort_regs (c : AbortCause) (s : State) : (raiseAbort c s).regs = s.regs := rfl
@[simp] theorem raiseAbort_pc (c : AbortCause) (s : State) : (raiseAbort c s).pc = s.pc := rfl
@[simp] theorem raiseAbort_cond (c : AbortCause) (s : State) : (raiseAbort c s).cond = s.cond := rfl
@[simp] theorem raiseAbort_runState (c : AbortCause) (s : State) : (raiseAbort c s).runState = .aborted := rfl
@[simp] theorem raiseAbort_abortCause (c : AbortCause) (s : State) : (raiseAbort c s).abortCause = some c := rfl
@[simp] theorem raiseAbort_mem (c : AbortCause) (s : State) : (raiseAbort c s).mem = s.mem := rfl
@[simp] theorem raiseAbort_inQueue (c : AbortCause) (s : State) : (raiseAbort c s).inQueue = s.inQueue := rfl
@[simp] theorem raiseAbort_inEnded (c : AbortCause) (s : State) : (raiseAbort c s).inEnded = s.inEnded := rfl
@[simp] theorem raiseAbort_out (c : AbortCause) (s : State) : (raiseAbort c s).out = s.out := rfl
@[simp] theorem raiseAbort_hostAbort (c : AbortCause) (s : State) : (raiseAbort c s).hostAbort = s.hostAbort := rfl
@[simp] theorem raiseAbort_pollScript (c : AbortCause) (s : State) : (raiseAbort c s).pollScript = s.pollScript := rfl
@[simp] theorem raiseAbort_pollDraws (c : AbortCause) (s : State) : (raiseAbort c s).pollDraws = s.pollDraws := rfl
@[simp] theorem raiseAbort_cfg (c : AbortCause) (s : State) : (raiseAbort c s).cfg = s.cfg := rfl
@[simp] theorem raiseAbort_reg (c : AbortCause) (s : State) (q : Reg) : (raiseAbort c s).reg q = s.reg q := rfl
@[simp] theorem raiseAbort_rawRead (c : AbortCause) (s : State) (x : Word) : rawRead x (raiseAbort c s) = rawRead x s := rfl

/-! ### haltEngine -/

@[simp] theorem haltEngine_regs (s : State) : (haltEngine s).regs = s.regs := rfl
@[simp] theorem haltEngine_pc (s : State) : (haltEngine s).pc = s.pc := rfl
@[simp] theorem haltEngine_cond (s : State) : (haltEngine s).cond = s.cond := rfl
@[simp] theorem haltEngine_runState (s : State) : (haltEngine s).runState = .halted := rfl
@[simp] theorem haltEngine_abortCause (s : State) : (haltEngine s).abortCause = s.abortCause := rfl
@[simp] theorem haltEngine_mem (s : State) : (haltEngine s).mem = s.mem := rfl
@[simp] theorem haltEngine_inQueue (s : State) : (haltEngine s).inQueue = s.inQueue := rfl
@[simp] theorem haltEngine_inEnded (s : State) : (haltEngine s).inEnded = s.inEnded := rfl
@[simp] theorem haltEngine_out (s : State) : (haltEngine s).out = s.out := rfl
@[simp] theorem haltEngine_hostAbort (s : State) : (haltEngine s).hostAbort = s.hostAbort := rfl
@[simp] theorem haltEngine_pollScript (s : State) : (haltEngine s).pollScript = s.pollScript := rfl
@[simp] theorem haltEngine_pollDraws (s : State) : (haltEngine s).pollDraws = s.pollDraws := rfl
@[simp] theorem haltEngine_cfg (s : State) : (haltEngine s).cfg = s.cfg := rfl
@[simp] theorem haltEngine_reg (s : State) (q : Reg) : (haltEngine s).reg q = s.reg q := rfl
@[simp] theorem haltEngine_rawRead (s : State) (x : Word) : rawRead x (haltEngine s) = rawRead x s := rfl

/-! ### trapEntry -/

@[simp] theorem trapEntry_regs (s : State) : (trapEntry s).regs = s.regs.set .r7 s.pc := rfl
@[simp] theorem trapEntry_pc (s : State) : (trapEntry s).pc = s.pc := rfl
@[simp] theorem trapEntry_cond (s : State) : (trapEntry s).cond = s.cond := rfl
@[simp] theorem trapEntry_runState (s : State) : (trapEntry s).runState = s.runState := rfl
@[simp] theorem trapEntry_abortCause (s : State) : (trapEntry s).abortCause = s.abortCause := rfl
@[simp] theorem trapEntry_mem (s : State) : (trapEntry s).mem = s.mem := rfl
@[simp] theorem trapEntry_inQueue (s : State) : (trapEntry s).inQueue = s.inQueue := rfl
@[simp] theorem trapEntry_inEnded (s : State) : (trapEntry s).inEnded = s.inEnded := rfl
@[simp] theorem trapEntry_out (s : State) : (trapEntry s).out = s.out := rfl
@[simp] theorem trapEntry_hostAbort (s : State) : (trapEntry s).hostAbort = s.hostAbort := rfl
@[simp] theorem trapEntry_pollScript (s : State) : (trapEntry s).pollScript = s.pollScript := rfl
@[simp] theorem trapEntry_pollDraws (s : State) : (trapEntry s).pollDraws = s.pollDraws := rfl
@[simp] theorem trapEntry_cfg (s : State) : (trapEntry s).cfg = s.cfg := rfl
@[simp] theorem trapEntry_rawRead (s : State) (x : Word) : rawRead x (trapEntry s) = rawRead x s := rfl

/-! ### resume -/

@[simp] theorem resume_regs (s : State) : (resume s).regs = s.regs := rfl
@[simp] theorem resume_pc (s : State) : (resume s).pc = s.pc := rfl
@[simp] theorem resume_cond (s : State) : (resume s).cond = s.cond := rfl
@[simp] theorem resume_runState (s : State) : (resume s).runState = .running := rfl
@[simp] theorem resume_abortCause (s : State) : (resume s).abortCause = s.abortCause := rfl
@[simp] theorem resume_mem (s : State) : (resume s).mem = s.mem := rfl
@[simp] theorem resume_inQueue (s : State) : (resume s).inQueue = s.inQueue := rfl
@[simp] theorem resume_inEnded (s : State) : (resume s).inEnded = s.inEnded := rfl
@[simp] theorem resume_out (s : State) : (resume s).out = s.out := rfl
@[simp] theorem resume_hostAbort (s : State) : (resume s).hostAbort = s.hostAbort := rfl
@[simp] theorem resume_pollScript (s : State) : (resume s).pollScript = s.pollScript := rfl
@[simp] theorem resume_pollDraws (s : State) : (resume s).pollDraws = s.pollDraws := rfl
@[simp] theorem resume_cfg (s : State) : (resume s).cfg = s.cfg := rfl
@[simp] theorem resume_reg (s : State) (q : Reg) : (resume s).reg q = s.reg q := rfl
@[simp] theorem resume_rawRead (s : State) (x : Word) : rawRead x (resume s) = rawRead x s := rfl

/-! ### setcc -/

@[simp] theorem setcc_regs (v : Word) (s : State) : (setcc v s).regs = s.regs := rfl
@[simp] theorem setcc_pc (v : Word) (s : State) : (setcc v s).pc = s.pc := rfl
@[simp] theorem setcc_cond (v : Word) (s : State) : (setcc v s).cond = flagOf v := rfl
@[simp] theorem setcc_runState (v : Word) (s : State) : (setcc v s).runState = s.runState := rfl
@[simp] theorem setcc_abortCause (v : Word) (s : State) : (setcc v s).abortCause = s.abortCause := rfl
@[simp] theorem setcc_mem (v : Word) (s : State) : (setcc v s).mem = s.mem := rfl
@[simp] theorem setcc_inQueue (v : Word) (s : State) : (setcc v s).inQueue = s.inQueue := rfl
@[simp] theorem setcc_inEnded (v : Word) (s : State) : (setcc v s).inEnded = s.inEnded := rfl
@[simp] theorem setcc_out (v : Word) (s : State) : (setcc v s).out = s.out := rfl
@[simp] theorem setcc_hostAbort (v : Word) (s : State) : (setcc v s).hostAbort = s.hostAbort := rfl
@[simp] theorem setcc_pollScript (v : Word) (s : State) : (setcc v s).pollScript = s.pollScript := rfl
@[simp] theorem setcc_pollDraws (v : Word) (s : State) : (setcc v s).pollDraws = s.pollDraws := rfl
@[simp] theorem setcc_cfg (v : Word) (s : State) : (setcc v s).cfg = s.cfg := rfl
@[simp] theorem setcc_reg (v : Word) (s : State) (q : Reg) : (setcc v s).reg q = s.reg q := rfl
@[simp] theorem setcc_rawRead (v : Word) (s : State) (x : Word) : rawRead x (setcc v s) = rawRead x s := rfl

/-! ### writeAndFlag -/

@[simp] theorem writeAndFlag_regs (r : Reg) (v : Word) (s : State) : (writeAndFlag r v s).regs = s.regs.set r v := rfl
@[simp] theorem writeAndFlag_pc (r : Reg) (v : Word) (s : State) : (writeAndFlag r v s).pc = s.pc := rfl
@[simp] theorem writeAndFlag_cond (r : Reg) (v : Word) (s : State) : (writeAndFlag r v s).cond = flagOf v := rfl
@[simp] theorem writeAndFlag_runState (r : Reg) (v : Word) (s : State) : (writeAndFlag r v s).runState = s.runState := rfl
@[simp] theorem writeAndFlag_abortCause (r : Reg) (v : Word) (s : State) : (writeAndFlag r v s).abortCause = s.abortCause := rfl
@[simp] theorem writeAndFlag_mem (r : Reg) (v : Word) (s : State) : (writeAndFlag r v s).mem = s.mem := rfl
@[simp] theorem writeAndFlag_inQueue (r : Reg) (v : Word) (s : State) : (writeAndFlag r v s).inQueue = s.inQueue := rfl
@[simp] theorem writeAndFlag_inEnded (r : Reg) (v : Word) (s : State) : (writeAndFlag r v s).inEnded = s.inEnded := rfl
@[simp] theorem writeAndFlag_out (r : Reg) (v : Word) (s : State) : (writeAndFlag r v s).out = s.out := rfl
@[simp] theorem writeAndFlag_hostAbort (r : Reg) (v : Word) (s : State) : (writeAndFlag r v s).hostAbort = s.hostAbort := rfl
@[simp] theorem writeAndFlag_pollScript (r : Reg) (v : Word) (s : State) : (writeAndFlag r v s).pollScript = s.pollScript := rfl
@[simp] theorem writeAndFlag_pollDraws (r : Reg) (v : Word) (s : State) : (writeAndFlag r v s).pollDraws = s.pollDraws := rfl
@[simp] theorem writeAndFlag_cfg (r : Reg) (v : Word) (s : State) : (writeAndFlag r v s).cfg = s.cfg := rfl
@[simp] theorem writeAndFlag_rawRead (r : Reg) (v : Word) (s : State) (x : Word) : rawRead x (writeAndFlag r v s) = rawRead x s := rfl

/-! ### Registers -/

theorem RegFile.get_set (f : RegFile) (r q : Reg) (v : Word) : (f.set r v).get q = if q = r then v else f.get q := by
  cases r <;> cases q <;> rfl

@[simp] theorem RegFile.get_set_same (f : RegFile) (r : Reg) (v : Word) : (f.set r v).get r = v := by
  simp [RegFile.get_set]

/-- A register file is what its registers read. -/
theorem RegFile.ext_get {f g : RegFile} (h : ∀ r, f.get r = g.get r) : f = g := by
  cases f; cases g
  have := h .r0; have := h .r1; have := h .r2; have := h .r3
  have := h .r4; have := h .r5; have := h .r6; have := h .r7
  simp_all [RegFile.get]

@[simp] theorem setReg_reg (r : Reg) (v : Word) (s : State) (q : Reg) :
    (State.setReg r v s).reg q = if q = r then v else s.reg q := RegFile.get_set s.regs r q v

@[simp] theorem writeAndFlag_reg (r : Reg) (v : Word) (s : State) (q : Reg) :
    (writeAndFlag r v s).reg q = if q = r then v else s.reg q := RegFile.get_set s.regs r q v

@[simp] theorem trapEntry_reg (s : State) (q : Reg) :
    (trapEntry s).reg q = if q = .r7 then s.pc else s.reg q := RegFile.get_set s.regs .r7 q s.pc

end Sys2Proof.Machine
end

