-- ==== Sys2Proof/Laws/Ops.lean ====
section
/-! SUPPORT. One lemma for each shared operation that says once everything it can do: the arbitered read, the input
operations, the string walk. Later proofs cite these and unfold none of the operations. -/

namespace Sys2Proof.Machine

/-! ### Words as memory keys -/

theorem rawRead_memWrite {s : State} (hm : s.mem.wf = true) (a v b : Word) :
    rawRead b (memWrite a v s) = if b = a then v else rawRead b s := by
  have h := Memory.read_write hm a.toNat v b.toNat
  simpa [rawRead, BitVec.toNat_inj] using h

theorem rawRead_memWrite_ne (s : State) {a b : Word} (v : Word) (h : b ≠ a) :
    rawRead b (memWrite a v s) = rawRead b s :=
  Memory.read_write_ne s.mem v (fun he => h (BitVec.eq_of_toNat_eq he))

theorem memWrite_wf {s : State} (a v : Word) (hm : s.mem.wf = true) : (memWrite a v s).mem.wf = true :=
  Memory.write_wf a v hm

/-! ### The poll -/

/-- A poll uses up one fixed answer, or one draw, and nothing else. -/
theorem advancePoll_cases (s : State) :
    (∃ answer rest, s.pollScript = answer :: rest ∧ advancePoll s = { s with pollScript := rest }) ∨
    (s.pollScript = [] ∧ advancePoll s = { s with pollDraws := s.pollDraws + 1 }) := by
  unfold advancePoll
  split
  · exact .inl ⟨_, _, by assumption, rfl⟩
  · exact .inr ⟨by assumption, rfl⟩

@[simp] theorem advancePoll_mem (s : State) : (advancePoll s).mem = s.mem := by unfold advancePoll; split <;> rfl
@[simp] theorem advancePoll_inQueue (s : State) : (advancePoll s).inQueue = s.inQueue := by
  unfold advancePoll; split <;> rfl

theorem pollAnswer_nil {s : State} (h : s.inQueue = []) : pollAnswer s = false := by simp [pollAnswer, h]

/-- "a true answer implies a byte is available" (20_memory.md R44). -/
theorem exists_of_pollAnswer {s : State} (h : pollAnswer s = true) : ∃ b rest, s.inQueue = b :: rest := by
  unfold pollAnswer at h
  split at h
  · exact absurd h (by decide)
  · exact ⟨_, _, by assumption⟩

/-- Everything the poll of KBSR can do: a true answer takes the head of the input, a false one clears KBSR. -/
theorem pollKbsr_cases (s : State) :
    (∃ b rest, pollAnswer s = true ∧ s.inQueue = b :: rest ∧
      pollKbsr s = memWrite Config.kbdrAddr (zext8 b)
        { memWrite Config.kbsrAddr s.cfg.kbsrReady (advancePoll s) with inQueue := rest }) ∨
    (pollAnswer s = false ∧ pollKbsr s = memWrite Config.kbsrAddr 0 (advancePoll s)) := by
  by_cases h : pollAnswer s = true
  · obtain ⟨b, rest, hq⟩ := exists_of_pollAnswer h
    refine .inl ⟨b, rest, h, hq, ?_⟩
    simp [pollKbsr, h, inByte, hq]
  · simp only [Bool.not_eq_true] at h
    exact .inr ⟨h, by simp [pollKbsr, h]⟩

/-- Everything the arbitered read can do: a plain read, or a poll and then the read of KBSR. -/
theorem memRead_cases (a : Word) (s : State) :
    (a ≠ Config.kbsrAddr ∧ memRead a s = (rawRead a s, s)) ∨
    (a = Config.kbsrAddr ∧ memRead a s = (rawRead a (pollKbsr s), pollKbsr s)) := by
  by_cases h : a = Config.kbsrAddr <;> simp [memRead, h]

theorem memRead_plain {a : Word} (h : a ≠ Config.kbsrAddr) (s : State) : memRead a s = (rawRead a s, s) := by
  simp [memRead, h]

/-- Nothing but memory, the input and the poll's own fields is ever touched by an arbitered read. -/
structure PollFrame (s t : State) : Prop where
  regs : t.regs = s.regs
  pc : t.pc = s.pc
  cond : t.cond = s.cond
  runState : t.runState = s.runState
  abortCause : t.abortCause = s.abortCause
  inEnded : t.inEnded = s.inEnded
  hostAbort : t.hostAbort = s.hostAbort
  cfg : t.cfg = s.cfg
  mem_wf : s.mem.wf = true → t.mem.wf = true
  rawRead : ∀ b, b ≠ Config.kbsrAddr → b ≠ Config.kbdrAddr → rawRead b t = Machine.rawRead b s
  inQueue : ∃ l, s.inQueue = l ++ t.inQueue

theorem PollFrame.refl (s : State) : PollFrame s s :=
  ⟨rfl, rfl, rfl, rfl, rfl, rfl, rfl, rfl, id, fun _ _ _ => rfl, [], rfl⟩

theorem PollFrame.trans {s t u : State} (h : PollFrame s t) (k : PollFrame t u) : PollFrame s u where
  regs := k.regs.trans h.regs
  pc := k.pc.trans h.pc
  cond := k.cond.trans h.cond
  runState := k.runState.trans h.runState
  abortCause := k.abortCause.trans h.abortCause
  inEnded := k.inEnded.trans h.inEnded
  hostAbort := k.hostAbort.trans h.hostAbort
  cfg := k.cfg.trans h.cfg
  mem_wf := fun hw => k.mem_wf (h.mem_wf hw)
  rawRead := fun b h1 h2 => (k.rawRead b h1 h2).trans (h.rawRead b h1 h2)
  inQueue := by
    obtain ⟨l, hl⟩ := h.inQueue
    obtain ⟨l', hl'⟩ := k.inQueue
    exact ⟨l ++ l', by rw [hl, hl', List.append_assoc]⟩

theorem advancePoll_frame (s : State) : PollFrame s (advancePoll s) := by
  obtain ⟨_, _, _, h⟩ | ⟨_, h⟩ := advancePoll_cases s <;>
    exact h ▸ ⟨rfl, rfl, rfl, rfl, rfl, rfl, rfl, rfl, id, fun _ _ _ => rfl, [], rfl⟩

theorem pollKbsr_frame (s : State) : PollFrame s (pollKbsr s) := by
  have hf := advancePoll_frame s
  obtain ⟨b, rest, -, hq, h⟩ | ⟨-, h⟩ := pollKbsr_cases s <;> rw [h]
  · refine ⟨hf.regs, hf.pc, hf.cond, hf.runState, hf.abortCause, hf.inEnded, hf.hostAbort, hf.cfg, ?_, ?_, ⟨[b], hq⟩⟩
    · exact fun hw => Memory.write_wf _ _ (Memory.write_wf _ _ (hf.mem_wf hw))
    · intro c h1 h2
      rw [rawRead_memWrite_ne _ _ h2]
      exact (rawRead_memWrite_ne (advancePoll s) _ h1).trans (hf.rawRead c h1 h2)
  · refine ⟨hf.regs, hf.pc, hf.cond, hf.runState, hf.abortCause, hf.inEnded, hf.hostAbort, hf.cfg, ?_, ?_, hf.inQueue⟩
    · exact fun hw => Memory.write_wf _ _ (hf.mem_wf hw)
    · exact fun c h1 h2 => (rawRead_memWrite_ne (advancePoll s) _ h1).trans (hf.rawRead c h1 h2)

@[simp] theorem advancePoll_out (s : State) : (advancePoll s).out = s.out := by unfold advancePoll; split <;> rfl

@[simp] theorem pollKbsr_out (s : State) : (pollKbsr s).out = s.out := by
  obtain ⟨_, _, -, -, h⟩ | ⟨-, h⟩ := pollKbsr_cases s <;> rw [h] <;> exact advancePoll_out s

theorem memRead_frame (a : Word) (s : State) : PollFrame s (memRead a s).2 := by
  obtain ⟨-, h⟩ | ⟨-, h⟩ := memRead_cases a s <;> rw [h]
  · exact .refl s
  · exact pollKbsr_frame s

@[simp] theorem memRead_out (a : Word) (s : State) : (memRead a s).2.out = s.out := by
  obtain ⟨-, h⟩ | ⟨-, h⟩ := memRead_cases a s <;> rw [h]
  exact pollKbsr_out s

@[simp] theorem memRead_regs (a : Word) (s : State) : (memRead a s).2.regs = s.regs := (memRead_frame a s).regs
@[simp] theorem memRead_pc (a : Word) (s : State) : (memRead a s).2.pc = s.pc := (memRead_frame a s).pc
@[simp] theorem memRead_cond (a : Word) (s : State) : (memRead a s).2.cond = s.cond := (memRead_frame a s).cond
@[simp] theorem memRead_runState (a : Word) (s : State) : (memRead a s).2.runState = s.runState :=
  (memRead_frame a s).runState
@[simp] theorem memRead_abortCause (a : Word) (s : State) : (memRead a s).2.abortCause = s.abortCause :=
  (memRead_frame a s).abortCause
@[simp] theorem memRead_inEnded (a : Word) (s : State) : (memRead a s).2.inEnded = s.inEnded :=
  (memRead_frame a s).inEnded
@[simp] theorem memRead_hostAbort (a : Word) (s : State) : (memRead a s).2.hostAbort = s.hostAbort :=
  (memRead_frame a s).hostAbort
@[simp] theorem memRead_cfg (a : Word) (s : State) : (memRead a s).2.cfg = s.cfg := (memRead_frame a s).cfg

/-! ### Input -/

/-- Everything `InByte()` can give (20_memory.md R45). -/
theorem inByte_cases (s : State) :
    (∃ b rest, s.inQueue = b :: rest ∧ inByte s = (.byte b, { s with inQueue := rest })) ∨
    (s.inQueue = [] ∧ s.inEnded = true ∧ s.cfg.eofPolicy = .valueFFFF ∧ inByte s = (.eof, s)) ∨
    (s.inQueue = [] ∧ s.inEnded = true ∧ s.cfg.eofPolicy = .stuck ∧ inByte s = (.ended, s)) ∨
    (s.inQueue = [] ∧ s.inEnded = false ∧ inByte s = (.hold, s)) := by
  cases hq : s.inQueue with
  | cons b rest => exact .inl ⟨b, rest, rfl, by simp [inByte, hq]⟩
  | nil =>
    cases he : s.inEnded with
    | false => simp [inByte, hq, he]
    | true => cases hp : s.cfg.eofPolicy <;> simp [inByte, hq, he, hp]

/-! ### Strings -/

/-- Under STRING_READ = raw, and away from KBSR in any case, a string read is a plain read. -/
theorem stringRead_plain {a : Word} {s : State} (h : s.cfg.stringRead = .raw ∨ a ≠ Config.kbsrAddr) :
    stringRead a s = (rawRead a s, s) := by
  unfold stringRead
  split
  · rfl
  · exact memRead_plain (h.resolve_left (by simp [*])) s

theorem stringRead_cases (a : Word) (s : State) :
    stringRead a s = (rawRead a s, s) ∨
    (s.cfg.stringRead = .arbitered ∧ a = Config.kbsrAddr ∧ stringRead a s = memRead a s) := by
  cases hc : s.cfg.stringRead with
  | raw => exact .inl (stringRead_plain (.inl hc))
  | arbitered =>
    by_cases ha : a = Config.kbsrAddr
    · exact .inr ⟨rfl, ha, by simp [stringRead, hc]⟩
    · exact .inl (stringRead_plain (.inr ha))

theorem stringRead_frame (a : Word) (s : State) : PollFrame s (stringRead a s).2 := by
  obtain h | ⟨-, -, h⟩ := stringRead_cases a s <;> rw [h]
  · exact .refl s
  · exact memRead_frame a s

@[simp] theorem stringRead_out (a : Word) (s : State) : (stringRead a s).2.out = s.out := by
  obtain h | ⟨-, -, h⟩ := stringRead_cases a s <;> rw [h]
  exact memRead_out a s

/-- A zero word ends the walk; it is not put out (43_trap.md R102). -/
theorem stringWalk_stop {emit : Word → List Byte} {fuel : Nat} {a : Word} {s : State} (hf : 0 < fuel)
    (h : (stringRead a s).1 = 0) : stringWalk emit fuel a s = some (stringRead a s).2 := by
  cases fuel with
  | zero => omega
  | succ n => rw [stringWalk, if_pos h]

/-- A nonzero word is put out and the walk goes on at the next address. -/
theorem stringWalk_go {emit : Word → List Byte} {fuel : Nat} {a : Word} {s : State} (hf : 0 < fuel)
    (h : (stringRead a s).1 ≠ 0) : stringWalk emit fuel a s =
      stringWalk emit (fuel - 1) (a + 1) (outBytes (emit (stringRead a s).1) (stringRead a s).2) := by
  cases fuel with
  | zero => omega
  | succ n => rw [stringWalk, if_neg h]; rfl

/-- What a finished walk has done: it put bytes out, and besides only what arbitered reads do. -/
theorem stringWalk_frame {emit : Word → List Byte} {fuel : Nat} {a : Word} {s t : State}
    (h : stringWalk emit fuel a s = some t) :
    PollFrame s t ∧ ∃ bs : List Byte, t.out = s.out ++ bs.map .byte := by
  induction fuel generalizing a s with
  | zero => simp [stringWalk] at h
  | succ n ih =>
    rw [stringWalk] at h
    split at h
    · cases h
      exact ⟨stringRead_frame a s, [], by simp⟩
    · obtain ⟨hf, bs, hbs⟩ := ih h
      refine ⟨?_, emit (stringRead a s).1 ++ bs, ?_⟩
      · have h1 := stringRead_frame a s
        exact h1.trans ⟨hf.regs, hf.pc, hf.cond, hf.runState, hf.abortCause, hf.inEnded, hf.hostAbort, hf.cfg, hf.mem_wf,
          hf.rawRead, hf.inQueue⟩
      · simp [hbs, List.append_assoc]

/-- Everything a string routine can do. -/
theorem putString_cases (emit : Word → List Byte) (s : State) :
    (∃ t, stringWalk emit Config.memWords (s.reg .r0) s = some t ∧ putString emit s = .next (outFlush t)) ∨
    (stringWalk emit Config.memWords (s.reg .r0) s = none ∧ putString emit s = .fault .unterminatedString) := by
  cases h : stringWalk emit Config.memWords (s.reg .r0) s with
  | some t => exact .inl ⟨t, rfl, by simp [putString, h]⟩
  | none => exact .inr ⟨rfl, by simp [putString, h]⟩

end Sys2Proof.Machine
end

