-- ==== Sys2Proof/Laws/PerInstr.lean ====
section
/-! SUPPORT. The family RowBits: the word of an instruction carries the fixed bits of its row of spec/opcode_table.json, one
lemma per constructor. -/

namespace Sys2Proof.Laws

/-- The word of `i` matches the mask and value of its row. -/
def RowBits.Statement (i : Instr) : Prop := encode i &&& (rowMaskMatch i).1 = (rowMaskMatch i).2

/-- A concatenation under a mask, bit by bit. -/
theorem and_eq_of_bits {w m v : Word} (h : ∀ k : Fin 16, (w.getLsbD k && m.getLsbD k) = v.getLsbD k) : w &&& m = v := by
  apply BitVec.eq_of_getLsbD_eq
  intro k hk
  simpa using h ⟨k, hk⟩

theorem RowBits.br (x y) : RowBits.Statement (.br x y) := by
  refine and_eq_of_bits fun k => ?_
  simp only [encode, rowMaskMatch, BitVec.getLsbD_append]
  fin_cases k <;> simp

theorem RowBits.addReg (x y z) : RowBits.Statement (.addReg x y z) := by
  refine and_eq_of_bits fun k => ?_
  simp only [encode, rowMaskMatch, BitVec.getLsbD_append]
  fin_cases k <;> simp

theorem RowBits.addImm (x y z) : RowBits.Statement (.addImm x y z) := by
  refine and_eq_of_bits fun k => ?_
  simp only [encode, rowMaskMatch, BitVec.getLsbD_append]
  fin_cases k <;> simp

theorem RowBits.ld (x y) : RowBits.Statement (.ld x y) := by
  refine and_eq_of_bits fun k => ?_
  simp only [encode, rowMaskMatch, BitVec.getLsbD_append]
  fin_cases k <;> simp

theorem RowBits.st (x y) : RowBits.Statement (.st x y) := by
  refine and_eq_of_bits fun k => ?_
  simp only [encode, rowMaskMatch, BitVec.getLsbD_append]
  fin_cases k <;> simp

theorem RowBits.jsr (x) : RowBits.Statement (.jsr x) := by
  refine and_eq_of_bits fun k => ?_
  simp only [encode, rowMaskMatch, BitVec.getLsbD_append]
  fin_cases k <;> simp

theorem RowBits.jsrr (x) : RowBits.Statement (.jsrr x) := by
  refine and_eq_of_bits fun k => ?_
  simp only [encode, rowMaskMatch, BitVec.getLsbD_append]
  fin_cases k <;> simp

theorem RowBits.andReg (x y z) : RowBits.Statement (.andReg x y z) := by
  refine and_eq_of_bits fun k => ?_
  simp only [encode, rowMaskMatch, BitVec.getLsbD_append]
  fin_cases k <;> simp

theorem RowBits.andImm (x y z) : RowBits.Statement (.andImm x y z) := by
  refine and_eq_of_bits fun k => ?_
  simp only [encode, rowMaskMatch, BitVec.getLsbD_append]
  fin_cases k <;> simp

theorem RowBits.ldr (x y z) : RowBits.Statement (.ldr x y z) := by
  refine and_eq_of_bits fun k => ?_
  simp only [encode, rowMaskMatch, BitVec.getLsbD_append]
  fin_cases k <;> simp

theorem RowBits.str (x y z) : RowBits.Statement (.str x y z) := by
  refine and_eq_of_bits fun k => ?_
  simp only [encode, rowMaskMatch, BitVec.getLsbD_append]
  fin_cases k <;> simp

theorem RowBits.rti : RowBits.Statement (.rti) := by
  unfold RowBits.Statement; decide

theorem RowBits.notReg (x y) : RowBits.Statement (.notReg x y) := by
  refine and_eq_of_bits fun k => ?_
  simp only [encode, rowMaskMatch, BitVec.getLsbD_append]
  fin_cases k <;> simp

theorem RowBits.ldi (x y) : RowBits.Statement (.ldi x y) := by
  refine and_eq_of_bits fun k => ?_
  simp only [encode, rowMaskMatch, BitVec.getLsbD_append]
  fin_cases k <;> simp

theorem RowBits.sti (x y) : RowBits.Statement (.sti x y) := by
  refine and_eq_of_bits fun k => ?_
  simp only [encode, rowMaskMatch, BitVec.getLsbD_append]
  fin_cases k <;> simp

theorem RowBits.jmp (x) : RowBits.Statement (.jmp x) := by
  refine and_eq_of_bits fun k => ?_
  simp only [encode, rowMaskMatch, BitVec.getLsbD_append]
  fin_cases k <;> simp

theorem RowBits.res : RowBits.Statement (.res) := by
  unfold RowBits.Statement; decide

theorem RowBits.lea (x y) : RowBits.Statement (.lea x y) := by
  refine and_eq_of_bits fun k => ?_
  simp only [encode, rowMaskMatch, BitVec.getLsbD_append]
  fin_cases k <;> simp

theorem RowBits.trapGetc : RowBits.Statement (.trapGetc) := by
  unfold RowBits.Statement; decide

theorem RowBits.trapOut : RowBits.Statement (.trapOut) := by
  unfold RowBits.Statement; decide

theorem RowBits.trapPuts : RowBits.Statement (.trapPuts) := by
  unfold RowBits.Statement; decide

theorem RowBits.trapIn : RowBits.Statement (.trapIn) := by
  unfold RowBits.Statement; decide

theorem RowBits.trapPutsp : RowBits.Statement (.trapPutsp) := by
  unfold RowBits.Statement; decide

theorem RowBits.trapHalt : RowBits.Statement (.trapHalt) := by
  unfold RowBits.Statement; decide

theorem RowBits.trap (x) : RowBits.Statement (.trap x) := by
  refine and_eq_of_bits fun k => ?_
  simp only [encode, rowMaskMatch, BitVec.getLsbD_append]
  fin_cases k <;> simp

end Sys2Proof.Laws
end

