-- ==== Sys2Proof/Laws/Step.lean ====
section
/-! SUPPORT. What a step can do, said once, and the shape of the generic TRAP's meaning. -/

namespace Sys2Proof.Machine

/-- Everything a pending host abort can do: nothing, one count less, or the abort itself. -/
theorem abortOrCount_cases (hold : Bool) (s : State) :
    (abortOrCount hold s = .proceed s) ∨
    (∃ n, s.hostAbort = some (n + 1) ∧ abortOrCount hold s = .proceed { s with hostAbort := some n }) ∨
    (∃ n, s.hostAbort = some n ∧ abortOrCount hold s = .abort (externalAbort s)) := by
  unfold abortOrCount
  rcases hh : s.hostAbort with _ | _ | n
  · exact .inl rfl
  · exact .inr (.inr ⟨0, rfl, rfl⟩)
  · cases hold
    · exact .inr (.inl ⟨n, rfl, by simp⟩)
    · exact .inr (.inr ⟨n + 1, rfl, by simp⟩)

/-- Everything a step boundary can do; an abort lands in no terminal state. -/
theorem hostBoundary_cases (s : State) :
    (hostBoundary s = .proceed s) ∨
    (∃ n, s.hostAbort = some (n + 1) ∧ hostBoundary s = .proceed { s with hostAbort := some n }) ∨
    (∃ n, s.hostAbort = some n ∧ s.runState ≠ .halted ∧ s.runState ≠ .aborted ∧
      hostBoundary s = .abort (externalAbort s)) := by
  have key : ∀ hold, hostBoundary s = abortOrCount hold s → s.runState ≠ .halted → s.runState ≠ .aborted →
      (hostBoundary s = .proceed s) ∨
      (∃ n, s.hostAbort = some (n + 1) ∧ hostBoundary s = .proceed { s with hostAbort := some n }) ∨
      (∃ n, s.hostAbort = some n ∧ s.runState ≠ .halted ∧ s.runState ≠ .aborted ∧
        hostBoundary s = .abort (externalAbort s)) := by
    intro hold hb h1 h2
    rw [hb]
    obtain h | h | ⟨n, hn, h⟩ := abortOrCount_cases hold s
    · exact .inl h
    · exact .inr (.inl h)
    · exact .inr (.inr ⟨n, hn, h1, h2, h⟩)
  cases hr : s.runState with
  | running => exact hr ▸ key false (by simp [hostBoundary, hr]) (by simp [hr]) (by simp [hr])
  | waitGetc => exact hr ▸ key (holding s) (by simp [hostBoundary, hr]) (by simp [hr]) (by simp [hr])
  | waitIn => exact hr ▸ key (holding s) (by simp [hostBoundary, hr]) (by simp [hr]) (by simp [hr])
  | halted => exact .inl (by simp [hostBoundary, hr])
  | aborted => exact .inl (by simp [hostBoundary, hr])

/-- With no host abort pending, a step is the block's own step. -/
theorem step_of_no_abort {s : State} (h : s.hostAbort = none) : step s = blockStep s := by
  have : hostBoundary s = .proceed s := by
    unfold hostBoundary abortOrCount
    cases s.runState <;> simp [h]
  simp [step, this]

/-- Everything a step that answers a next state can be. -/
theorem step_cases {s t : State} (h : step s = .next t) :
    (∃ n, s.hostAbort = some n ∧ s.runState ≠ .halted ∧ s.runState ≠ .aborted ∧ t = externalAbort s) ∨
    (∃ s1, (s1 = s ∨ ∃ n, s.hostAbort = some (n + 1) ∧ s1 = { s with hostAbort := some n }) ∧
      ((s.runState = .running ∧ exec (decode (fetch s1).1) (fetch s1).2 = .next t) ∨
       (s.runState = .waitGetc ∧ completeGetc s1 = .next t) ∨
       (s.runState = .waitIn ∧ completeIn s1 = .next t))) := by
  have key : ∀ s1 : State, s1.runState = s.runState → blockStep s1 = .next t →
      ((s.runState = .running ∧ exec (decode (fetch s1).1) (fetch s1).2 = .next t) ∨
       (s.runState = .waitGetc ∧ completeGetc s1 = .next t) ∨
       (s.runState = .waitIn ∧ completeIn s1 = .next t)) := by
    intro s1 hr hb
    unfold blockStep at hb
    rw [hr] at hb
    cases hs : s.runState <;> simp only [hs] at hb
    · exact .inl ⟨rfl, hb⟩
    · exact .inr (.inl ⟨rfl, hb⟩)
    · exact .inr (.inr ⟨rfl, hb⟩)
    · cases hb
    · cases hb
  obtain hp | ⟨n, hn, hp⟩ | ⟨n, hn, h1, h2, hp⟩ := hostBoundary_cases s <;> simp only [step, hp] at h
  · exact .inr ⟨s, .inl rfl, key s rfl h⟩
  · exact .inr ⟨_, .inr ⟨n, hn, rfl⟩, key _ rfl h⟩
  · exact .inl ⟨n, hn, h1, h2, by cases h; rfl⟩

/-- What a fetch leaves alone. -/
theorem fetch_frame (s : State) : PollFrame { s with pc := s.pc + 1 } (fetch s).2 := by
  have h := memRead_frame s.pc s
  exact ⟨h.regs, rfl, h.cond, h.runState, h.abortCause, h.inEnded, h.hostAbort, h.cfg, h.mem_wf, h.rawRead, h.inQueue⟩

/-- A completing step of GETC answers a next state exactly when a byte or the EOF marker is there. -/
theorem completeGetc_cases {s t : State} (h : completeGetc s = .next t) :
    (∃ b rest, s.inQueue = b :: rest ∧ t = finishGetc (zext8 b) { s with inQueue := rest }) ∨
    (s.inQueue = [] ∧ s.inEnded = true ∧ s.cfg.eofPolicy = .valueFFFF ∧ t = finishGetc 0xFFFF s) := by
  obtain ⟨b, rest, hq, hb⟩ | ⟨hq, he, hp, hb⟩ | ⟨_, _, _, hb⟩ | ⟨_, _, hb⟩ := inByte_cases s <;>
    simp only [completeGetc, hb] at h
  · exact .inl ⟨b, rest, hq, by cases h; rfl⟩
  · exact .inr ⟨hq, he, hp, by cases h; rfl⟩
  · cases h
  · cases h

/-- A completing step of IN answers a next state exactly when a byte or the EOF marker is there. -/
theorem completeIn_cases {s t : State} (h : completeIn s = .next t) :
    (∃ b rest, s.inQueue = b :: rest ∧ t = finishIn b (zext8 b) { s with inQueue := rest }) ∨
    (s.inQueue = [] ∧ s.inEnded = true ∧ s.cfg.eofPolicy = .valueFFFF ∧ t = finishIn 0xFF 0xFFFF s) := by
  obtain ⟨b, rest, hq, hb⟩ | ⟨hq, he, hp, hb⟩ | ⟨_, _, _, hb⟩ | ⟨_, _, hb⟩ := inByte_cases s <;>
    simp only [completeIn, hb] at h
  · exact .inl ⟨b, rest, hq, by cases h; rfl⟩
  · exact .inr ⟨hq, he, hp, by cases h; rfl⟩
  · cases h
  · cases h

/-- The generic TRAP aborts on every vector that has no service routine. -/
theorem execTrap_bad {v : BitVec 8} (hv : serviceVector v = false) (s : State) :
    execTrap v s = .next (raiseAbort (.badTrapVector v) (trapEntry s)) := by
  unfold execTrap
  split <;> first | rfl | (exact absurd hv (by decide))

end Sys2Proof.Machine
end

