-- ==== Sys2Proof/Tests/Slice0.lean ====
section
/-! SUPPORT. The model's own tests. The expected results of the step tests are those of spec/95_test_vectors.md, whose row is
named at each test; the words of the decode tests are written out from the patterns of 30_encoding.md R65. After them, for
each obligation that has hypotheses, a witness: a concrete state and operands that meet them together. -/

namespace Sys2Proof.Tests

open Sys2Proof.Machine Sys2Proof.Claims

/-- Memory with the given cells. -/
def cells (cs : List (Nat × Word)) : Memory := cs.foldl (fun m c => m.write c.1 c.2) []

/-- The state of 95_test_vectors.md's conventions: reset, with the pc, the memory and the input given. -/
def start (pc : Word) (cs : List (Nat × Word)) (input : List Byte := []) : State :=
  { State.reset with pc := pc, mem := cells cs, inQueue := input, pollScript := input.map (fun _ => true) }

/-- What a test reads of the state after a step. -/
def after {α : Type} (o : Host.Outcome State Fault Refusal) (f : State → α) : Option α :=
  match o with
  | .next t => some (f t)
  | .fault _ => none
  | .refused _ => none

/-- The fault of a step that has no next state. -/
def faultOf (o : Host.Outcome State Fault Refusal) : Option Fault :=
  match o with
  | .next _ => none
  | .fault f => some f
  | .refused _ => none

/-! ### Well-formedness -/

theorem test_wf_refuses_generic_trap_with_service_vector : Instr.wf (.trap 0x25) = false := by decide
theorem test_wf_accepts_generic_trap_beside_the_range :
    Instr.wf (.trap 0x26) = true ∧ Instr.wf (.trap 0x1F) = true := by decide

/-! ### Decoding: every constructor by a word written out from its pattern -/

theorem test_decode_control : decode 0b0000_101_011111111 = .br 0b101 0x0FF ∧ decode 0b1100_111_010_111111 = .jmp .r2 ∧
    decode 0b0100_1_10000000001 = .jsr 0x401 ∧ decode 0b0100_0_11_011_111111 = .jsrr .r3 := by decide
theorem test_decode_operate : decode 0b0001_010_011_0_00_100 = .addReg .r2 .r3 .r4 ∧
    decode 0b0001_010_011_1_10000 = .addImm .r2 .r3 0x10 ∧ decode 0b0101_001_010_0_11_011 = .andReg .r1 .r2 .r3 ∧
    decode 0b0101_101_110_1_11111 = .andImm .r5 .r6 0x1F ∧ decode 0b1001_001_010_000000 = .notReg .r1 .r2 := by decide
theorem test_decode_load_store : decode 0b0010_001_000000101 = .ld .r1 5 ∧ decode 0b1010_011_000001000 = .ldi .r3 8 ∧
    decode 0b0110_001_010_100000 = .ldr .r1 .r2 0x20 ∧ decode 0b1110_010_000001000 = .lea .r2 8 ∧
    decode 0b0011_111_000000010 = .st .r7 2 ∧ decode 0b1011_011_000001000 = .sti .r3 8 ∧
    decode 0b0111_001_010_011111 = .str .r1 .r2 0x1F := by decide
theorem test_decode_trap : decode 0b1111_0000_00100000 = .trapGetc ∧ decode 0b1111_0000_00100001 = .trapOut ∧
    decode 0b1111_0000_00100010 = .trapPuts ∧ decode 0b1111_0000_00100011 = .trapIn ∧
    decode 0b1111_0000_00100100 = .trapPutsp ∧ decode 0b1111_1111_00100101 = .trapHalt ∧
    decode 0b1111_0000_00100110 = .trap 0x26 := by decide
theorem test_decode_unimplemented : decode 0b1000_111111111111 = .rti ∧ decode 0b1101_101010111100 = .res := by decide
theorem test_decode_rejects_no_word : decodeWords [] = .error .noWord ∧ decodeTableWord 32 0x1000 = none := by decide
theorem test_table_word : decodeTableWord 16 0x1025 = some (.addImm .r0 .r0 5) := by decide

/-! ### Operate -/

/-- V-ADD-ovf and V-ADD-wrap. -/
theorem test_addImm_wraps :
    after (step ((start 0x3000 [(0x3000, 0x1261)]).setReg .r1 0x7FFF)) (fun t => (t.reg .r1, t.cond)) =
      some (0x8000, 0b100) ∧
    after (step ((start 0x3000 [(0x3000, 0x1261)]).setReg .r1 0xFFFF)) (fun t => (t.reg .r1, t.cond)) =
      some (0x0000, 0b010) := by decide
/-- V-ADD-imm-min. -/
theorem test_addImm_sign_extends :
    after (step ((start 0x3000 [(0x3000, 0x14F0)]).setReg .r3 0x0010)) (fun t => (t.reg .r2, t.cond, t.pc)) =
      some (0x0000, 0b010, 0x3001) := by decide
/-- V-ADD-dc. -/
theorem test_addReg_ignores_bits_4_3 :
    after (step (((start 0x3000 [(0x3000, 0x14DC)]).setReg .r3 1).setReg .r4 2)) (fun t => (t.reg .r2, t.cond)) =
      some (0x0003, 0b001) := by decide
/-- V-ADD-same. -/
theorem test_addReg_source_is_destination :
    after (step ((start 0x3000 [(0x3000, 0x1241)]).setReg .r1 0x4000)) (fun t => (t.reg .r1, t.cond)) =
      some (0x8000, 0b100) := by decide
/-- V-AND-m16. -/
theorem test_andImm_sign_extends :
    after (step ((start 0x3000 [(0x3000, 0x5B70)]).setReg .r5 0x00FF)) (fun t => (t.reg .r5, t.cond)) =
      some (0x00F0, 0b001) := by decide
/-- V-AND-reg. -/
theorem test_andReg :
    after (step (((start 0x3000 [(0x3000, 0x5283)]).setReg .r2 0xF0F0).setReg .r3 0xFF00))
      (fun t => (t.reg .r1, t.cond)) = some (0xF000, 0b100) := by decide
/-- V-NOT-dc. -/
theorem test_not_ignores_low_bits :
    after (step ((start 0x3000 [(0x3000, 0x9280)]).setReg .r2 0x00F0)) (fun t => (t.reg .r1, t.cond)) =
      some (0xFF0F, 0b100) := by decide

/-! ### Control -/

/-- V-BR-wrap-up. -/
theorem test_br_wraps : after (step (start 0xFFFF [(0xFFFF, 0x0E01)])) (fun t => t.pc) = some 0x0001 := by decide
/-- V-BR-taken and V-BR-nottaken. -/
theorem test_br_tests_cond :
    after (step { start 0x3004 [(0x3004, 0x03FD)] with cond := 0b001 }) (fun t => t.pc) = some 0x3002 ∧
    after (step (start 0x3004 [(0x3004, 0x03FD)])) (fun t => t.pc) = some 0x3005 := by decide
/-- V-JMP-dc. -/
theorem test_jmp_ignores_bits :
    after (step ((start 0x3000 [(0x3000, 0xCFFF)]).setReg .r7 0x1234)) (fun t => (t.pc, t.reg .r7)) =
      some (0x1234, 0x1234) := by decide
/-- V-JSR-min. -/
theorem test_jsr_min : after (step (start 0x3000 [(0x3000, 0x4C00)])) (fun t => (t.reg .r7, t.pc)) =
    some (0x3001, 0x2C01) := by decide
/-- V-JSRR-R7. -/
theorem test_jsrr_r7_reads_after_write :
    after (step ((start 0x3000 [(0x3000, 0x41C0)]).setReg .r7 0x4444)) (fun t => (t.reg .r7, t.pc)) =
      some (0x3001, 0x3001) := by decide
/-- V-JSRR. -/
theorem test_jsrr :
    after (step ((start 0x3000 [(0x3000, 0x40C0)]).setReg .r3 0x5000)) (fun t => (t.reg .r7, t.pc)) =
      some (0x3001, 0x5000) := by decide

/-! ### Loads and stores -/

/-- V-LD-wrap. -/
theorem test_ld_wraps : after (step (start 0xFFFF [(0xFFFF, 0x2201), (0x0001, 0x00AA)])) (fun t => (t.reg .r1, t.pc)) =
    some (0x00AA, 0x0000) := by decide
/-- V-LD-KBSR. -/
theorem test_ld_of_kbsr_polls : after (step (start 0xFD00 [(0xFD00, 0x20FF)] [0x51]))
    (fun t => (t.reg .r0, t.cond, rawRead 0xFE00 t, rawRead 0xFE02 t, t.inQueue)) =
      some (0x8000, 0b100, 0x8000, 0x0051, []) := by decide
/-- V-LDI-KBSR-empty. -/
theorem test_ldi_of_kbsr_clears : after (step (start 0x3000 [(0x3000, 0xA004), (0x3005, 0xFE00), (0xFE00, 0x8000)]))
    (fun t => (t.reg .r0, t.cond, rawRead 0xFE00 t)) = some (0x0000, 0b010, 0x0000) := by decide
/-- V-LDI-KBDR. -/
theorem test_ldi_of_kbdr : after (step (start 0x3000 [(0x3000, 0xA004), (0x3005, 0xFE02), (0xFE02, 0x0041)] [0x42]))
    (fun t => (t.reg .r0, t.cond, t.inQueue)) = some (0x0041, 0b001, [0x42]) := by decide
/-- V-LDR-dr-base. -/
theorem test_ldr_destination_is_base :
    after (step ((start 0x3000 [(0x3000, 0x649F), (0x401F, 0x1111)]).setReg .r2 0x4000)) (fun t => t.reg .r2) =
      some 0x1111 := by decide
/-- V-LDR-neg-wrap. -/
theorem test_ldr_wraps : after (step (start 0x3000 [(0x3000, 0x62BF), (0xFFFF, 0x7777)])) (fun t => t.reg .r1) =
    some 0x7777 := by decide
/-- V-LEA-Z and V-LEA-N. -/
theorem test_lea_sets_flags :
    after (step (start 0x0000 [(0x0000, 0xE7FF)])) (fun t => (t.reg .r3, t.cond)) = some (0x0000, 0b010) ∧
    after (step (start 0x9000 [(0x9000, 0xE400)])) (fun t => (t.reg .r2, t.cond)) = some (0x9001, 0b100) := by decide
/-- V-LEA-KBSR. -/
theorem test_lea_does_not_poll : after (step (start 0xFD00 [(0xFD00, 0xE0FF)] [0x41]))
    (fun t => (t.reg .r0, t.inQueue)) = some (0xFE00, [0x41]) := by decide
/-- V-ST. -/
theorem test_st : after (step { (start 0x3005 [(0x3005, 0x3002)]).setReg .r0 0x000F with cond := 0b100 })
    (fun t => (rawRead 0x3008 t, t.cond)) = some (0x000F, 0b100) := by decide
/-- V-ST-KBSR. -/
theorem test_st_to_kbsr_is_plain : after (step ((start 0xFD00 [(0xFD00, 0x30FF)] [0x41]).setReg .r0 0x1234))
    (fun t => (rawRead 0xFE00 t, t.inQueue)) = some (0x1234, [0x41]) := by decide
/-- V-STI. -/
theorem test_sti : after (step ((start 0x3003 [(0x3003, 0xB608), (0x300C, 0x3100)]).setReg .r3 0x00F0))
    (fun t => rawRead 0x3100 t) = some 0x00F0 := by decide
/-- V-STI-ptr-KBSR-ready. -/
theorem test_sti_pointer_at_kbsr_polls : after (step ((start 0xFD00 [(0xFD00, 0xB2FF)] [0x41]).setReg .r1 0x5555))
    (fun t => (rawRead 0xFE00 t, rawRead 0xFE02 t, rawRead 0x8000 t)) = some (0x8000, 0x0041, 0x5555) := by decide
/-- V-STR-wrap. -/
theorem test_str_wraps :
    after (step (((start 0x3000 [(0x3000, 0x729F)]).setReg .r1 0xABCD).setReg .r2 0xFFF0)) (fun t => rawRead 0x000F t) =
      some 0xABCD := by decide

/-! ### Traps -/

/-- V-GETC, its issuing step. -/
theorem test_getc_issues : after (step (start 0x3000 [(0x3000, 0xF020)] [0x41]))
    (fun t => (t.reg .r7, t.runState, t.pc)) = some (0x3001, .waitGetc, 0x3001) := by decide
/-- V-GETC-high, the completing step. -/
theorem test_getc_completes : after (step { start 0x3001 [] [0xE9] with runState := .waitGetc })
    (fun t => (t.reg .r0, t.cond, t.runState, t.inQueue)) = some (0x00E9, 0b001, .running, []) := by decide
/-- V-OUT. -/
theorem test_out : after (step ((start 0x3000 [(0x3000, 0xF021)]).setReg .r0 0x1241))
    (fun t => (t.out, t.reg .r7, t.cond)) = some ([.byte 0x41, .flush], 0x3001, 0b010) := by decide
/-- V-PUTS-wrap. -/
theorem test_puts_wraps :
    after (step ((start 0x3000 [(0x3000, 0xF022), (0xFFFF, 0x0041), (0x0000, 0x0042)]).setReg .r0 0xFFFF))
      (fun t => (bytesOf t.out, t.reg .r0)) = some ([0x41, 0x42], 0xFFFF) := by decide
/-- V-PUTS-KBSR. -/
theorem test_puts_does_not_poll :
    after (step ((start 0x3000 [(0x3000, 0xF022), (0xFE00, 0x0041)] [0x78]).setReg .r0 0xFE00))
      (fun t => (bytesOf t.out, rawRead 0xFE00 t, t.inQueue)) = some ([0x41], 0x0041, [0x78]) := by decide
/-- V-IN, its issuing step. -/
theorem test_in_issues : after (step (start 0x3000 [(0x3000, 0xF023)] [0x79]))
    (fun t => (bytesOf t.out, t.reg .r7, t.runState)) = some (State.reset.cfg.inPrompt, 0x3001, .waitIn) := by decide
/-- V-IN, the completing step. -/
theorem test_in_completes : after (step { start 0x3001 [] [0x79] with runState := .waitIn })
    (fun t => (bytesOf t.out, t.reg .r0, t.cond, t.runState)) = some ([0x79], 0x0079, 0b001, .running) := by decide
/-- V-PUTSP. -/
theorem test_putsp : after (step ((start 0x3000 [(0x3000, 0xF024), (0x4000, 0x6948), (0x4001, 0x0021)]).setReg .r0 0x4000))
    (fun t => bytesOf t.out) = some [0x48, 0x69, 0x21] := by decide
/-- V-PUTSP-lowzero. -/
theorem test_putsp_low_zero : after (step ((start 0x3000 [(0x3000, 0xF024), (0x4000, 0x4100)]).setReg .r0 0x4000))
    (fun t => bytesOf t.out) = some [0x00, 0x41] := by decide
/-- V-HALT. -/
theorem test_halt : after (step (start 0x3002 [(0x3002, 0xF025)]))
    (fun t => (bytesOf t.out, t.reg .r7, t.pc, t.runState)) =
      some ([0x48, 0x41, 0x4C, 0x54, 0x0A], 0x3003, 0x3003, .halted) := by decide
/-- V-TRAP-bad. -/
theorem test_bad_trap : after (step (start 0x3000 [(0x3000, 0xF026)]))
    (fun t => (t.reg .r7, t.pc, t.runState, t.abortCause, t.out)) =
      some (0x3001, 0x3001, .aborted, some (.badTrapVector 0x26), []) := by decide
/-- V-GETC-EOF-value and V-GETC-EOF-stuck. -/
theorem test_getc_end_of_input :
    after (step { start 0x3001 [] with
        runState := .waitGetc, inEnded := true, cfg := { State.reset.cfg with eofPolicy := .valueFFFF } })
      (fun t => (t.reg .r0, t.cond, t.runState)) = some (0xFFFF, 0b100, .running) ∧
    faultOf (step { start 0x3001 [] with runState := .waitGetc, inEnded := true }) = some .inputEnded := by decide

/-! ### RTI, RES, the fetch path, the loader -/

/-- V-RTI-any. -/
theorem test_rti : after (step (start 0x3000 [(0x3000, 0x8FFF)]))
    (fun t => (t.pc, t.runState, t.abortCause)) = some (0x3001, .aborted, some (.illegalOpcode 0x8)) := by decide
/-- V-RES. -/
theorem test_res : after (step (start 0x3000 [(0x3000, 0xD000)]))
    (fun t => (t.pc, t.runState, t.abortCause)) = some (0x3001, .aborted, some (.illegalOpcode 0xD)) := by decide
/-- V-FETCH-KBSR-ready. -/
theorem test_fetch_at_kbsr : after (step (start 0xFE00 [] [0x41]))
    (fun t => (t.pc, t.abortCause, rawRead 0xFE00 t, rawRead 0xFE02 t)) =
      some (0xFE01, some (.illegalOpcode 0x8), 0x8000, 0x0041) := by decide
/-- V-LOAD-top. -/
theorem test_load_top : loadImage [0xFF, 0xFF, 0x00, 0x01, 0x00, 0x02] [] = [(0xFFFF, 0x0001)] := by decide
/-- V-LOAD-overlap. -/
theorem test_load_overlap : loadImage [0x30, 0x01, 0x33, 0x33] (loadImage [0x30, 0x00, 0x11, 0x11, 0x22, 0x22] []) =
    [(0x3000, 0x1111), (0x3001, 0x3333)] := by decide
/-- 60_exceptions.md R118: the host abort beats the instruction at its boundary, and with a count left comes after it. -/
theorem test_host_abort_order :
    after (step (hostRequestAbort 0 (start 0x3000 [(0x3000, 0x1025)]))) (fun t => (t.reg .r0, t.abortCause)) =
      some (0, some .externalAbort) ∧
    after (step (hostRequestAbort 1 (start 0x3000 [(0x3000, 0x1025)]))) (fun t => (t.reg .r0, t.hostAbort)) =
      some (5, some 0) := by decide
theorem test_withFetchWord : after (step (State.reset.withFetchWord 16 0x1025)) (fun t => (t.reg .r0, t.pc)) =
    some (5, 0x3001) := by decide

/-! ### Witnesses: the hypotheses of each obligation can be met -/

theorem witness_sign_extension : 1 ≤ 1 ∧ 1 ≤ 15 ∧ 15 ≤ 15 ∧ (0x4000#15).msb = true := by decide
theorem witness_decode_formats : serviceVector 0x1F = false ∧ serviceVector 0x26 = false := by decide
theorem witness_encode_wf : Instr.wf (.trap 0xFF) = true ∧ Instr.wf (.addImm .r7 .r0 0x10) = true := by decide
theorem witness_one_hot : OneHot condN ∧ OneHot condZ ∧ OneHot condP := by decide
theorem witness_memory_wf : (start 0x3000 [(0xFFFF, 1), (0, 2)]).mem.wf = true := by decide
theorem witness_equal_reads : (cells [(5, 1), (3, 2)]).wf = true ∧ (cells [(3, 2), (9, 4), (9, 0), (5, 1)]).wf = true ∧
    cells [(5, 1), (3, 2)] = cells [(3, 2), (9, 4), (9, 0), (5, 1)] := by decide
theorem witness_kbsr_read : (start 0 [] [0x41]).mem.wf = true ∧ (start 0 [] [0x41]).inQueue = 0x41 :: [] ∧
    pollAnswer (start 0 [] [0x41]) = true ∧ pollAnswer { start 0 [] [0x41] with pollScript := [false] } = false ∧
    (start 0 []).inQueue = [] := by decide
theorem witness_two_kbsr_reads : (start 0 [] [0x41, 0x42]).mem.wf = true ∧
    (start 0 [] [0x41, 0x42]).inQueue = 0x41 :: 0x42 :: [] ∧
    (start 0 [] [0x41, 0x42]).pollScript = true :: true :: [] := by decide
theorem witness_load_after_store : State.reset.mem.wf = true ∧ State.reset.reg .r2 + (0x3F#6).signExtend 16 ≠ 0xFE00 ∧
    ∃ t, exec (.str .r1 .r2 0x3F) State.reset = .next t := ⟨by decide, by decide, _, rfl⟩
theorem witness_plain_string :
    PlainString ((start 0 [(0xFFFF, 0x48), (0x0000, 0x69)]).setReg .r0 0xFFFF) 2 ∧
    PlainString { (start 0 [(0xFDFF, 0x48), (0xFE01, 0x69)]).setReg .r0 0xFE01 with
      cfg := { State.reset.cfg with stringRead := .arbitered } } 1 ∧
    PlainString (start 0 []) 0 := by
  refine ⟨⟨by decide, by decide, by decide, .inl (by decide)⟩, ⟨by decide, by decide, by decide, .inr (by decide)⟩,
    ⟨by decide, by decide, by decide, .inl (by decide)⟩⟩
theorem witness_raw_strings : State.reset.cfg.stringRead = .raw := by decide
/-- A state whose strings are arbitered and whose R0 points to KBSR. -/
def arbiteredAtKbsr (input : List Byte) : State :=
  { (start 0x3001 [] input).setReg .r0 0xFE00 with cfg := { State.reset.cfg with stringRead := .arbitered } }
theorem witness_arbitered_strings : (arbiteredAtKbsr []).mem.wf = true ∧
    (arbiteredAtKbsr []).cfg.stringRead = .arbitered ∧ (arbiteredAtKbsr []).reg .r0 = 0xFE00 ∧
    (arbiteredAtKbsr []).inQueue = [] := by decide
theorem witness_arbitered_strings_ready : (arbiteredAtKbsr [0x41]).mem.wf = true ∧
    (arbiteredAtKbsr [0x41]).cfg.stringRead = .arbitered ∧ (arbiteredAtKbsr [0x41]).reg .r0 = 0xFE00 ∧
    (arbiteredAtKbsr [0x41]).inQueue = 0x41 :: [] ∧ (arbiteredAtKbsr [0x41]).pollScript = true :: [] ∧
    (arbiteredAtKbsr [0x41]).cfg.kbsrReady ≠ 0 ∧ rawRead 0xFE01 (arbiteredAtKbsr [0x41]) = 0 := by decide
theorem witness_unknown_vector : ((0x1F#8).toNat < 0x20) ∧ (0x25 < (0x26#8).toNat) := by decide
/-- A state in a wait. -/
def waiting (r : RunState) (input : List Byte) : State := { start 0x3001 [] input with runState := r }
theorem witness_getc_completes : (waiting .waitGetc [0x00]).runState = .waitGetc ∧
    (waiting .waitGetc [0x00]).hostAbort = none ∧ (waiting .waitGetc [0x00]).inQueue = 0x00 :: [] := by decide
theorem witness_in_completes : (waiting .waitIn [0xFF]).runState = .waitIn ∧
    (waiting .waitIn [0xFF]).hostAbort = none ∧ (waiting .waitIn [0xFF]).inQueue = 0xFF :: [] := by decide
/-- A wait at the end of input. -/
def ended (r : RunState) (p : EofPolicy) : State :=
  { waiting r [] with inEnded := true, cfg := { State.reset.cfg with eofPolicy := p } }
theorem witness_end_of_input : (ended .waitGetc .valueFFFF).hostAbort = none ∧ (ended .waitGetc .valueFFFF).inQueue = [] ∧
    (ended .waitGetc .valueFFFF).inEnded = true ∧ (ended .waitGetc .valueFFFF).cfg.eofPolicy = .valueFFFF ∧
    (ended .waitGetc .valueFFFF).runState = .waitGetc ∧ (ended .waitIn .valueFFFF).hostAbort = none ∧
    (ended .waitIn .valueFFFF).inQueue = [] ∧ (ended .waitIn .valueFFFF).inEnded = true ∧
    (ended .waitIn .valueFFFF).cfg.eofPolicy = .valueFFFF ∧ (ended .waitIn .valueFFFF).runState = .waitIn := by decide
theorem witness_rti_res : (Instr.rti = .rti ∨ Instr.rti = .res) ∧ (Instr.res = .rti ∨ Instr.res = .res) := by decide
theorem witness_step_runs : State.reset.runState = .running ∧ State.reset.hostAbort = none ∧ State.reset.pc ≠ 0xFE00 ∧
    (hostRequestAbort 1 State.reset).hostAbort = some (0 + 1) := by decide
theorem witness_fetch_at_kbsr : Runs (start 0xFE00 []) ∧ (start 0xFE00 []).mem.wf = true ∧ (start 0xFE00 []).pc = 0xFE00 ∧
    (start 0xFE00 []).inQueue = [] := ⟨⟨rfl, rfl⟩, by decide, rfl, rfl⟩
theorem witness_fetch_at_kbsr_ready : Runs (start 0xFE00 [] [0x41]) ∧ (start 0xFE00 [] [0x41]).mem.wf = true ∧
    (start 0xFE00 [] [0x41]).pc = 0xFE00 ∧ (start 0xFE00 [] [0x41]).inQueue = 0x41 :: [] ∧
    (start 0xFE00 [] [0x41]).pollScript = true :: [] ∧ (start 0xFE00 [] [0x41]).cfg.kbsrReady = 0x8000 :=
  ⟨⟨rfl, rfl⟩, by decide, rfl, rfl, rfl, by decide⟩
theorem witness_store_seen : State.reset.mem.wf = true ∧ Runs (State.reset.setReg .r2 0x3001) ∧
    (State.reset.setReg .r2 0x3001).pc ≠ 0xFE00 ∧
    (State.reset.setReg .r2 0x3001).reg .r2 + (0x3F#6).signExtend 16 = (State.reset.setReg .r2 0x3001).pc ∧
    ∃ t, exec (.str .r1 .r2 0x3F) (State.reset.setReg .r2 0x3001) = .next t :=
  ⟨by decide, ⟨rfl, rfl⟩, by decide, by decide, _, rfl⟩
theorem witness_pc_writers : (∃ t, exec (.notReg .r1 .r2) State.reset = .next t) ∧ writesPc (.notReg .r1 .r2) = false ∧
    (∃ t, exec (.br 0b101 7) State.reset = .next t) ∧ 0b101#3 &&& State.reset.cond = 0 :=
  ⟨⟨_, rfl⟩, rfl, ⟨_, rfl⟩, by decide⟩
theorem witness_no_step : (waiting .halted []).runState = .halted ∧ (waiting .aborted []).runState = .aborted ∧
    (waiting .waitIn []).runState = .waitIn ∧ (waiting .waitIn []).hostAbort = none ∧ (waiting .waitIn []).inQueue = [] ∧
    (waiting .waitIn []).inEnded = false ∧ (ended .waitGetc .stuck).runState = .waitGetc ∧
    (ended .waitGetc .stuck).hostAbort = none ∧ (ended .waitGetc .stuck).inQueue = [] ∧
    (ended .waitGetc .stuck).inEnded = true ∧ (ended .waitGetc .stuck).cfg.eofPolicy = .stuck := by decide
theorem witness_host_abort : ¬ Terminal State.reset ∧ ¬ Terminal (waiting .waitIn []) ∧
    (waiting .waitIn []).runState ≠ .running ∧ (waiting .waitIn []).inQueue = [] ∧
    (waiting .waitIn []).inEnded = false ∧ ¬ Terminal (ended .waitGetc .stuck) ∧
    (ended .waitGetc .stuck).runState ≠ .running ∧ (ended .waitGetc .stuck).inQueue = [] ∧
    (ended .waitGetc .stuck).cfg.eofPolicy = .stuck := by decide
theorem witness_ends_of_run : Instr.wf .rti = true ∧ isString .rti = false ∧ State.reset.runState = .running ∧
    (∃ t, exec .rti State.reset = .next t) ∧ (∃ t, exec .trapHalt State.reset = .next t) :=
  ⟨rfl, rfl, rfl, ⟨_, rfl⟩, ⟨_, rfl⟩⟩
theorem witness_abort_address : Runs (start 0x3000 [(0x3000, 0xF026)]) ∧
    after (step (start 0x3000 [(0x3000, 0xF026)])) (fun t => t.runState) = some .aborted := ⟨⟨rfl, rfl⟩, by decide⟩
theorem witness_params : defaultParams.wf = true := by decide
theorem witness_invariant : Inv State.reset ∧ ∃ t, step State.reset = .next t := ⟨by decide, _, rfl⟩
theorem witness_register_writers : (∃ t, exec (.lea .r3 4) State.reset = .next t) ∧ Reg.r2 ∉ destinations (.lea .r3 4) ∧
    (∃ t, exec .trapOut State.reset = .next t) ∧ isTrap .trapOut = true ∧
    (waiting .waitGetc [0x41]).runState ≠ .running ∧ (∃ t, step (waiting .waitGetc [0x41]) = .next t) ∧ Reg.r7 ≠ .r0 :=
  ⟨⟨_, rfl⟩, by decide, ⟨_, rfl⟩, rfl, by decide, ⟨_, rfl⟩, by decide⟩
theorem witness_flag_writers : (∃ t, exec (.lea .r3 4) State.reset = .next t) ∧ setsFlags (.lea .r3 4) = true ∧
    (∃ t, exec (.jsr 4) State.reset = .next t) ∧ setsFlags (.jsr 4) = false := ⟨⟨_, rfl⟩, rfl, ⟨_, rfl⟩, rfl⟩
theorem witness_flag_readers : ∀ nzp off, Instr.jmp .r3 ≠ .br nzp off := by intro _ _ h; cases h
theorem witness_memory_frame : Instr.wf (.st .r1 2) = true ∧ (∃ t, exec (.st .r1 2) State.reset = .next t) ∧
    storeTarget (.st .r1 2) State.reset ≠ some 0x3003 ∧ readsArbitered (.st .r1 2) State.reset = false ∧
    (∃ t, exec (.ldi .r1 2) State.reset = .next t) ∧ storeTarget (.ldi .r1 2) State.reset ≠ some 0xFE01 ∧
    ((0xFE01 : Word) ≠ 0xFE00 ∧ (0xFE01 : Word) ≠ 0xFE02) :=
  ⟨rfl, ⟨_, rfl⟩, by decide, rfl, ⟨_, rfl⟩, by decide, by decide⟩
theorem witness_output : (∃ t, step State.reset = .next t) ∧ isTrap (.lea .r3 4) = false ∧
    (∃ t, exec (.lea .r3 4) State.reset = .next t) := ⟨⟨_, rfl⟩, rfl, ⟨_, rfl⟩⟩
theorem witness_image : Memory.wf [] = true ∧ 1 < ([1, 2] : List Word).length ∧ (0xFFFE#16).toNat + 1 < 65536 ∧
    65535 < (0xFFFF#16).toNat + 1 := by decide
theorem witness_image_edges : (0xFFFE#16).toNat + ([1, 2] : List Word).length = 65536 ∧ ([0x30] : List Byte).length < 2 := by
  decide
theorem witness_overlap : (0 < ([3] : List Word).length) ∧ (0x3001#16).toNat + 0 < 65536 ∧
    (0 < ([1, 2] : List Word).length) ∧ (0x3000#16).toNat + 0 < (0x3001#16).toNat := by decide
theorem witness_boot : (∀ i ∈ [(⟨[0x30, 0x00], true⟩ : ImageSource)], i.readable = true) ∧
    (⟨[0x30], false⟩ : ImageSource).readable = false := by decide
theorem witness_placed_word : State.reset.mem.wf = true := by decide

end Sys2Proof.Tests
end

namespace Sys2Proof.Machine

/-! ### Sign extension (00_scope.md R10) -/

/-- The filler that `sext` shifts into the high bits is the word of ones. -/
theorem getElem_sext_filler (i : Nat) (hi : i < 16) : (0xFFFF#16)[i] = true :=
  BitVec.getElem_allOnes (v := 16) i hi

/-- The document's OR with `0xFFFF << n` is the library's sign extension, at every width. -/
@[simp] theorem sext_eq_signExtend {n : Nat} (v : BitVec n) : sext v = v.signExtend 16 := by
  ext i hi
  rw [BitVec.getElem_signExtend]
  by_cases hin : i < n
  · cases hmsb : v.msb <;> simp [sext, hmsb, hin]
  · have hout : v.getLsbD i = false := v.getLsbD_of_ge i (by omega)
    cases hmsb : v.msb <;> simp [sext, hmsb, hin, hout, getElem_sext_filler]

/-- The low n bits of the extension of an n-bit field are that field. -/
theorem extractLsb'_signExtend {n m : Nat} (v : BitVec n) (h : n ≤ m) : (v.signExtend m).extractLsb' 0 n = v := by
  ext i hi
  have him : i < m := by omega
  simp [BitVec.getElem_signExtend, hi, him]

/-- Settles O1: `sext` is `BitVec.signExtend`, so the value is the library's, and extending the low bits again extends
`v` itself. -/
theorem signExtensionKeepsTheSignedValue : Obligations.SignExtensionKeepsTheSignedValue := by
  intro n v _ hn
  have hle : n ≤ 16 := by omega
  have hval : (sext v).toInt = v.toInt := by
    rw [sext_eq_signExtend, BitVec.toInt_signExtend_of_le hle]
  have hlow : (sext v).extractLsb' 0 n = v := by
    rw [sext_eq_signExtend, extractLsb'_signExtend v hle]
  exact ⟨hval, hlow, by rw [hlow]⟩

end Sys2Proof.Machine

namespace Sys2Proof.Machine

open Sys2Proof.Claims

/-! ### What an instruction can do (10_state.md R27) -/

/-- How a TRAP ends in the state `u` that its routine reached: the engine runs on, it enters a wait or HALTED, or the
vector has no routine and the run is aborted. -/
inductive TrapEnd (i : Instr) (u : State) : State → Prop
  | runsOn : TrapEnd i u u
  | enters (r : RunState) (hr : r ≠ .aborted) : TrapEnd i u (u.setRun r)
  | aborts (v : BitVec 8) (hi : i = .trap v) (hv : serviceVector v = false) :
      TrapEnd i u (raiseAbort (.badTrapVector v) u)

/-- The next states that the instruction `i` can answer in `s`, by what it writes last; `u` is the state after the
instruction's own reads and output. -/
inductive Effect (i : Instr) (s : State) : State → Prop
  | writesFlagged (d : Reg) (v : Word) (u : State) (hi : setsFlags i = true) (hd : destinations i = [d])
      (hu : PollFrame s u) (hout : u.out = s.out) : Effect i s (writeAndFlag d v u)
  | stores (a v : Word) (u : State) (hi : storeTarget i s = some a) (hu : PollFrame s u) (hout : u.out = s.out) :
      Effect i s (memWrite a v u)
  | fallsThrough (nzp : BitVec 3) (off : BitVec 9) (hi : i = .br nzp off) : Effect i s s
  | jumps (v : Word) (hi : destinations i = []) (hpc : writesPc i = true) : Effect i s (s.setPc v)
  | calls (v : Word) (hi : destinations i = [.r7]) (hpc : writesPc i = true) :
      Effect i s ((s.setReg .r7 s.pc).setPc v)
  | illegal (op : BitVec 4) (hi : i = .rti ∧ op = 0x8 ∨ i = .res ∧ op = 0xD) :
      Effect i s (raiseAbort (.illegalOpcode op) s)
  | traps (u t : State) (hi : isTrap i = true) (hu : PollFrame (trapEntry s) u) (hout : ∃ l, u.out = s.out ++ l)
      (hend : TrapEnd i u t) : Effect i s t

/-- The output is no part of what `PollFrame` compares. -/
theorem PollFrame.withOut {s u : State} (h : PollFrame s u) (o : List OutEvent) : PollFrame s { u with out := o } :=
  ⟨h.regs, h.pc, h.cond, h.runState, h.abortCause, h.inEnded, h.hostAbort, h.cfg, h.mem_wf, h.rawRead, h.inQueue⟩

/-! The routines of TRAP, which both the six rows and the generic row reach. -/

section Routines

variable {i : Instr} {s t : State} (hi : isTrap i = true)
include hi

theorem getcRoutine_effect (h : getcRoutine (trapEntry s) = .next t) : Effect i s t := by
  cases h
  exact .traps _ _ hi (.refl _) ⟨[], (List.append_nil _).symm⟩ (.enters .waitGetc (by decide))

theorem outRoutine_effect (h : outRoutine (trapEntry s) = .next t) : Effect i s t := by
  cases h
  exact .traps _ _ hi ((PollFrame.refl _).withOut _) ⟨_, List.append_assoc _ _ _⟩ .runsOn

theorem inRoutine_effect (h : inRoutine (trapEntry s) = .next t) : Effect i s t := by
  cases h
  exact .traps _ _ hi ((PollFrame.refl _).withOut _) ⟨_, rfl⟩ (.enters .waitIn (by decide))

theorem haltRoutine_effect (h : haltRoutine (trapEntry s) = .next t) : Effect i s t := by
  cases h
  exact .traps _ _ hi ((PollFrame.refl _).withOut _) ⟨_, List.append_assoc _ _ _⟩ (.enters .halted (by decide))

theorem putString_effect {emit : Word → List Byte} (h : putString emit (trapEntry s) = .next t) : Effect i s t := by
  obtain ⟨u, hwalk, hput⟩ | ⟨-, hput⟩ := putString_cases emit (trapEntry s) <;> rw [hput] at h <;> cases h
  obtain ⟨hframe, bs, hbs⟩ := stringWalk_frame hwalk
  exact .traps _ _ hi (hframe.withOut _) ⟨bs.map .byte ++ [.flush], by simp [hbs]⟩ .runsOn

end Routines

/-- Only the six vectors of 43_trap.md R98 have a service routine. -/
theorem serviceVector_eq_true {v : BitVec 8} (h : serviceVector v = true) :
    v = 0x20#8 ∨ v = 0x21#8 ∨ v = 0x22#8 ∨ v = 0x23#8 ∨ v = 0x24#8 ∨ v = 0x25#8 := by
  simp only [serviceVector, Bool.and_eq_true, decide_eq_true_eq] at h
  simp only [← BitVec.toNat_inj, BitVec.reduceToNat]
  omega

theorem execTrap_effect {v : BitVec 8} {s t : State} (h : execTrap v s = .next t) : Effect (.trap v) s t := by
  cases hv : serviceVector v with
  | false =>
    rw [execTrap_bad hv] at h
    cases h
    exact .traps _ _ rfl (.refl _) ⟨[], (List.append_nil _).symm⟩ (.aborts v rfl hv)
  | true =>
    obtain rfl | rfl | rfl | rfl | rfl | rfl := serviceVector_eq_true hv
    · exact getcRoutine_effect rfl h
    · exact outRoutine_effect rfl h
    · exact putString_effect rfl h
    · exact inRoutine_effect rfl h
    · exact putString_effect rfl h
    · exact haltRoutine_effect rfl h

/-- Everything an instruction that answers a next state can have done. -/
theorem exec_effect {i : Instr} {s t : State} (h : exec i s = .next t) : Effect i s t := by
  cases i with
  | addReg d a b => cases h; exact .writesFlagged _ _ _ rfl rfl (.refl s) rfl
  | addImm d a imm => cases h; exact .writesFlagged _ _ _ rfl rfl (.refl s) rfl
  | andReg d a b => cases h; exact .writesFlagged _ _ _ rfl rfl (.refl s) rfl
  | andImm d a imm => cases h; exact .writesFlagged _ _ _ rfl rfl (.refl s) rfl
  | notReg d a => cases h; exact .writesFlagged _ _ _ rfl rfl (.refl s) rfl
  | lea d off => cases h; exact .writesFlagged _ _ _ rfl rfl (.refl s) rfl
  | ld d off => cases h; exact .writesFlagged _ _ _ rfl rfl (memRead_frame _ s) (memRead_out _ s)
  | ldr d b off => cases h; exact .writesFlagged _ _ _ rfl rfl (memRead_frame _ s) (memRead_out _ s)
  | ldi d off =>
    cases h
    exact .writesFlagged _ _ _ rfl rfl ((memRead_frame _ s).trans (memRead_frame _ _))
      ((memRead_out _ _).trans (memRead_out _ s))
  | st r off => cases h; exact .stores _ _ _ (by simp [storeTarget, pcRel9]) (.refl s) rfl
  | str r b off => cases h; exact .stores _ _ _ (by simp [storeTarget, baseOff6]) (.refl s) rfl
  | sti r off =>
    cases h
    exact .stores _ _ _ (by simp [storeTarget, indirect9, pcRel9]) (memRead_frame _ s) (memRead_out _ s)
  | br nzp off =>
    cases h
    split
    · exact .jumps _ rfl rfl
    · exact .fallsThrough _ _ rfl
  | jmp b => cases h; exact .jumps _ rfl rfl
  | jsr off => cases h; exact .calls _ rfl rfl
  | jsrr b => cases h; exact .calls _ rfl rfl
  | rti => cases h; exact .illegal _ (.inl ⟨rfl, rfl⟩)
  | res => cases h; exact .illegal _ (.inr ⟨rfl, rfl⟩)
  | trapGetc => exact getcRoutine_effect rfl h
  | trapOut => exact outRoutine_effect rfl h
  | trapPuts => exact putString_effect rfl h
  | trapIn => exact inRoutine_effect rfl h
  | trapPutsp => exact putString_effect rfl h
  | trapHalt => exact haltRoutine_effect rfl h
  | trap v => exact execTrap_effect h

end Sys2Proof.Machine

namespace Sys2Proof.Machine

open Sys2Proof.Claims

/-! ### The classes of instructions exclude each other -/

theorem destinations_of_isTrap {i : Instr} (h : isTrap i = true) : destinations i = [.r7] := by
  cases i <;> simp_all [isTrap, destinations]

theorem setsFlags_of_isTrap {i : Instr} (h : isTrap i = true) : setsFlags i = false := by
  cases i <;> simp_all [isTrap, setsFlags]

theorem setsFlags_of_writesPc {i : Instr} (h : writesPc i = true) : setsFlags i = false := by
  cases i <;> simp_all [writesPc, setsFlags]

theorem setsFlags_of_storeTarget {i : Instr} {s : State} {a : Word} (h : storeTarget i s = some a) :
    setsFlags i = false := by
  cases i <;> simp_all [storeTarget, setsFlags]

theorem isTrap_of_storeTarget {i : Instr} {s : State} {a : Word} (h : storeTarget i s = some a) :
    isTrap i = false := by
  cases i <;> simp_all [storeTarget, isTrap]

/-! ### The pc (10_state.md R17) -/

theorem fetch_pc (s : State) : (fetch s).2.pc = s.pc + 1 := rfl

/-- An instruction that is no control transfer leaves the incremented pc. -/
theorem exec_pc {i : Instr} {s t : State} (h : exec i s = .next t) (hi : writesPc i = false) : t.pc = s.pc := by
  cases exec_effect h with
  | writesFlagged d v u _ _ hu => exact hu.pc
  | stores a v u _ hu => exact hu.pc
  | fallsThrough => rfl
  | jumps v _ hpc => simp [hi] at hpc
  | calls v _ hpc => simp [hi] at hpc
  | illegal => rfl
  | traps u t _ hu _ hend => cases hend <;> exact hu.pc

/-- A BR whose mask does not meet COND changes nothing. -/
theorem execBr_not_taken {nzp : BitVec 3} {s : State} (off : BitVec 9) (h : nzp &&& s.cond = 0) :
    execBr nzp off s = .next s := by
  simp [execBr, branchTaken, h]

/-- Settles O35: of the effects an instruction can have, only `jumps` and `calls` write the pc. -/
theorem onlyControlTransfersWriteThePc : Obligations.OnlyControlTransfersWriteThePc := by
  refine ⟨fun s => ?_, fun i s t => exec_pc, fun nzp off s t h hmask => ?_⟩
  · rw [fetch_pc, BitVec.toNat_add]; rfl
  · cases (execBr_not_taken off hmask).symm.trans h
    rfl

/-! ### The general registers (10_state.md R21) -/

theorem PollFrame.reg {s u : State} (h : PollFrame s u) (r : Reg) : u.reg r = s.reg r :=
  congrArg (·.get r) h.regs

theorem TrapEnd.reg {i : Instr} {u t : State} (h : TrapEnd i u t) (r : Reg) : t.reg r = u.reg r := by
  cases h <;> rfl

/-- A register that is no destination of the instruction keeps its value. -/
theorem exec_reg {i : Instr} {s t : State} {r : Reg} (h : exec i s = .next t) (hr : r ∉ destinations i) :
    t.reg r = s.reg r := by
  cases exec_effect h with
  | writesFlagged d v u _ hd hu =>
    have hne : r ≠ d := by simpa [hd] using hr
    simp [hne, hu.reg]
  | stores a v u _ hu => exact hu.reg r
  | fallsThrough => rfl
  | jumps => rfl
  | calls v hd =>
    have hne : r ≠ .r7 := by simpa [hd] using hr
    simp [hne]
  | illegal => rfl
  | traps u t hi hu _ hend =>
    have hne : r ≠ .r7 := by simpa [destinations_of_isTrap hi] using hr
    simp [hend.reg, hu.reg, hne]

/-- Every TRAP leaves the incremented pc in R7. -/
theorem exec_trap_link {i : Instr} {s t : State} (h : exec i s = .next t) (hi : isTrap i = true) :
    t.reg .r7 = s.pc := by
  have hd := destinations_of_isTrap hi
  cases exec_effect h with
  | writesFlagged d v u hf => simp [setsFlags_of_isTrap hi] at hf
  | stores a v u hst => simp [isTrap_of_storeTarget hst] at hi
  | fallsThrough nzp off hbr => simp [hbr, isTrap] at hi
  | jumps v hnil => simp [hd] at hnil
  | calls => simp
  | illegal op hill => obtain ⟨rfl, -⟩ | ⟨rfl, -⟩ := hill <;> simp [isTrap] at hi
  | traps u t _ hu _ hend => simp [hend.reg, hu.reg]

theorem finishGetc_reg {r : Reg} (hr : r ≠ .r0) (v : Word) (s : State) : (finishGetc v s).reg r = s.reg r := by
  simp [finishGetc, hr]

theorem finishIn_reg {r : Reg} (hr : r ≠ .r0) (echo : Byte) (v : Word) (s : State) :
    (finishIn echo v s).reg r = s.reg r := by
  simp [finishIn, hr]

theorem completeGetc_reg {s t : State} {r : Reg} (h : completeGetc s = .next t) (hr : r ≠ .r0) :
    t.reg r = s.reg r := by
  obtain ⟨b, rest, -, rfl⟩ | ⟨-, -, -, rfl⟩ := completeGetc_cases h
  · exact finishGetc_reg hr _ _
  · exact finishGetc_reg hr _ _

theorem completeIn_reg {s t : State} {r : Reg} (h : completeIn s = .next t) (hr : r ≠ .r0) :
    t.reg r = s.reg r := by
  obtain ⟨b, rest, -, rfl⟩ | ⟨-, -, -, rfl⟩ := completeIn_cases h
  · exact finishIn_reg hr _ _ _
  · exact finishIn_reg hr _ _ _

/-- A step from a wait writes no register but R0. -/
theorem step_wait_reg {s t : State} {r : Reg} (hw : s.runState ≠ .running) (h : step s = .next t) (hr : r ≠ .r0) :
    t.reg r = s.reg r := by
  obtain ⟨-, -, -, -, rfl⟩ | ⟨s1, hs1, hblock⟩ := step_cases h
  · rfl
  · have hsame : s1.reg r = s.reg r := by obtain rfl | ⟨n, -, rfl⟩ := hs1 <;> rfl
    obtain ⟨hrun, -⟩ | ⟨-, hc⟩ | ⟨-, hc⟩ := hblock
    · exact absurd hrun hw
    · exact (completeGetc_reg hc hr).trans hsame
    · exact (completeIn_reg hc hr).trans hsame

/-- Settles O43: each effect of an instruction writes its destinations alone, and a wait completes into R0. -/
theorem onlyTheListedInstructionsWriteRegisters : Obligations.OnlyTheListedInstructionsWriteRegisters := by
  refine ⟨fun i s t r => exec_reg, fun i s t h hi => ?_, fun s t r => step_wait_reg⟩
  obtain htrap | ⟨off, rfl⟩ | ⟨b, rfl⟩ := hi
  · exact exec_trap_link h htrap
  · cases h; simp
  · cases h; simp

/-! ### The flags (10_state.md R18-R20) -/

/-- `flagOf` gives the flag that the rule of 10_state.md R19 asks for. -/
theorem flagMatches_flagOf (v : Word) : FlagMatches v (flagOf v) := by
  unfold FlagMatches flagOf
  split_ifs with hz hn
  · subst hz; decide
  · simp_all [condZ, condN, condP]
  · simp_all [condZ, condN, condP]

theorem oneHot_flagOf (v : Word) : OneHot (flagOf v) := by
  unfold flagOf
  split
  · exact .inr (.inl rfl)
  · split
    · exact .inl rfl
    · exact .inr (.inr rfl)

/-- Settles O2: `setcc` writes `flagOf v` into COND, and `flagOf` is the rule. -/
theorem setccFollowsTheFlagRule : Obligations.SetccFollowsTheFlagRule :=
  fun v _ => ⟨rfl, flagMatches_flagOf v, rfl⟩

theorem TrapEnd.cond {i : Instr} {u t : State} (h : TrapEnd i u t) : t.cond = u.cond := by
  cases h <;> rfl

/-- COND is the flag of the destination register, or the instruction has no such register and COND stays. -/
theorem exec_cond {i : Instr} {s t : State} (h : exec i s = .next t) :
    (setsFlags i = true ∧ ∃ d, destinations i = [d] ∧ t.cond = flagOf (t.reg d)) ∨
    (setsFlags i = false ∧ t.cond = s.cond) := by
  cases exec_effect h with
  | writesFlagged d v u hi hd => exact .inl ⟨hi, d, hd, by simp⟩
  | stores a v u hi hu => exact .inr ⟨setsFlags_of_storeTarget hi, hu.cond⟩
  | fallsThrough nzp off hi => exact .inr ⟨by rw [hi]; rfl, rfl⟩
  | jumps v _ hpc => exact .inr ⟨setsFlags_of_writesPc hpc, rfl⟩
  | calls v _ hpc => exact .inr ⟨setsFlags_of_writesPc hpc, rfl⟩
  | illegal op hi => exact .inr ⟨by obtain ⟨rfl, -⟩ | ⟨rfl, -⟩ := hi <;> rfl, rfl⟩
  | traps u t hi hu _ hend => exact .inr ⟨setsFlags_of_isTrap hi, hend.cond.trans hu.cond⟩

/-- Settles O44, from the two cases of `exec_cond`. -/
theorem flagsFollowTheDestinationRegister : Obligations.FlagsFollowTheDestinationRegister := by
  intro i s t h
  obtain ⟨hi, d, hd, hc⟩ | ⟨hi, hc⟩ := exec_cond h
  · exact ⟨by simp [hi], fun _ => ⟨d, hd, hc ▸ flagMatches_flagOf _⟩⟩
  · exact ⟨fun _ => hc, by simp [hi]⟩

/-! ### The invariant (10_state.md R18, R25; 60_exceptions.md R112) -/

/-- Outside ABORTED the cause matches exactly when none is recorded. -/
theorem causeMatches_iff {s : State} (h : s.runState ≠ .aborted) : causeMatches s = true ↔ s.abortCause = none := by
  cases hr : s.runState <;> simp_all [causeMatches]

theorem PollFrame.inv {s u : State} (h : PollFrame s u) (hs : Inv s) : Inv u := by
  obtain ⟨hmem, hcond, hcause⟩ := hs
  refine ⟨h.mem_wf hmem, h.cond ▸ hcond, ?_⟩
  simpa only [causeMatches, h.runState, h.abortCause] using hcause

theorem writeAndFlag_inv {u : State} (d : Reg) (v : Word) : Inv u → Inv (writeAndFlag d v u) :=
  fun ⟨hmem, _, hcause⟩ => ⟨hmem, oneHot_flagOf v, hcause⟩

theorem memWrite_inv {u : State} (a v : Word) : Inv u → Inv (memWrite a v u) :=
  fun ⟨hmem, hcond, hcause⟩ => ⟨memWrite_wf a v hmem, hcond, hcause⟩

theorem raiseAbort_inv {c : AbortCause} {u : State} (hc : legalCause c = true) : Inv u → Inv (raiseAbort c u) :=
  fun ⟨hmem, hcond, _⟩ => ⟨hmem, hcond, hc⟩

/-- Entering a run state other than ABORTED keeps the invariant where no abort is recorded. -/
theorem setRun_inv {u : State} {r : RunState} (hu : Inv u) (hrun : u.runState ≠ .aborted) (hr : r ≠ .aborted) :
    Inv (u.setRun r) := by
  obtain ⟨hmem, hcond, hcause⟩ := hu
  have hnone : u.abortCause = none := (causeMatches_iff hrun).1 hcause
  exact ⟨hmem, hcond, (causeMatches_iff (s := u.setRun r) hr).2 hnone⟩

theorem TrapEnd.inv {i : Instr} {u t : State} (h : TrapEnd i u t) (hu : Inv u) (hrun : u.runState ≠ .aborted) :
    Inv t := by
  cases h with
  | runsOn => exact hu
  | enters r hr => exact setRun_inv hu hrun hr
  | aborts v _ hv => exact raiseAbort_inv (by simp [legalCause, hv]) hu

/-- An instruction that runs outside ABORTED keeps the invariant. -/
theorem exec_inv {i : Instr} {s t : State} (hs : Inv s) (hrun : s.runState ≠ .aborted) (h : exec i s = .next t) :
    Inv t := by
  cases exec_effect h with
  | writesFlagged d v u _ _ hu => exact writeAndFlag_inv d v (hu.inv hs)
  | stores a v u _ hu => exact memWrite_inv a v (hu.inv hs)
  | fallsThrough => exact hs
  | jumps => exact hs
  | calls => exact hs
  | illegal op hi => exact raiseAbort_inv (by obtain ⟨-, rfl⟩ | ⟨-, rfl⟩ := hi <;> rfl) hs
  | traps u t _ hu _ hend =>
    have hentry : Inv (trapEntry s) := hs
    exact hend.inv (hu.inv hentry) (by rw [hu.runState]; exact hrun)

theorem finishGetc_inv {u : State} (v : Word) (hu : Inv u) (hrun : u.runState ≠ .aborted) : Inv (finishGetc v u) :=
  setRun_inv (writeAndFlag_inv .r0 v hu) hrun (by decide)

theorem finishIn_inv {u : State} (echo : Byte) (v : Word) (hu : Inv u) (hrun : u.runState ≠ .aborted) :
    Inv (finishIn echo v u) :=
  setRun_inv (writeAndFlag_inv .r0 v (u := outFlush (outByte echo u)) hu) hrun (by decide)

theorem completeGetc_inv {s t : State} (hs : Inv s) (hrun : s.runState ≠ .aborted) (h : completeGetc s = .next t) :
    Inv t := by
  obtain ⟨b, rest, -, rfl⟩ | ⟨-, -, -, rfl⟩ := completeGetc_cases h
  · exact finishGetc_inv (u := { s with inQueue := rest }) _ hs hrun
  · exact finishGetc_inv _ hs hrun

theorem completeIn_inv {s t : State} (hs : Inv s) (hrun : s.runState ≠ .aborted) (h : completeIn s = .next t) :
    Inv t := by
  obtain ⟨b, rest, -, rfl⟩ | ⟨-, -, -, rfl⟩ := completeIn_cases h
  · exact finishIn_inv (u := { s with inQueue := rest }) _ _ hs hrun
  · exact finishIn_inv _ _ hs hrun

/-- Settles O42: the boundary, the fetch and the completions of the waits keep the invariant, and so does every effect of
an instruction (`exec_inv`). -/
theorem everyStepKeepsTheInvariant : Obligations.EveryStepKeepsTheInvariant := by
  intro s t hs h
  obtain ⟨-, -, -, -, rfl⟩ | ⟨s1, hs1, hblock⟩ := step_cases h
  · exact raiseAbort_inv (u := { s with hostAbort := none }) rfl hs
  · have hinv : Inv s1 := by obtain rfl | ⟨n, -, rfl⟩ := hs1 <;> exact hs
    have hrun : s1.runState = s.runState := by obtain rfl | ⟨n, -, rfl⟩ := hs1 <;> rfl
    obtain ⟨hr, he⟩ | ⟨hr, hc⟩ | ⟨hr, hc⟩ := hblock
    · have hfetch : Inv (fetch s1).2 := (fetch_frame s1).inv hinv
      exact exec_inv hfetch (by rw [(fetch_frame s1).runState]; simp [hrun, hr]) he
    · exact completeGetc_inv hinv (by simp [hrun, hr]) hc
    · exact completeIn_inv hinv (by simp [hrun, hr]) hc

end Sys2Proof.Machine

namespace Sys2Proof.Machine

open Sys2Proof.Claims

/-! ### Outcomes -/

/-- The outcome with its next state, if it has one, mapped. -/
def mapNext (f : State → State) : Host.Outcome State Fault Refusal → Host.Outcome State Fault Refusal
  | .next t => .next (f t)
  | .fault e => .fault e
  | .refused e => .refused e

@[simp] theorem mapNext_next (f : State → State) (t : State) : mapNext f (.next t) = .next (f t) := rfl
@[simp] theorem mapNext_fault (f : State → State) (e : Fault) : mapNext f (.fault e) = .fault e := rfl

/-! ### States that differ in COND and in the output history alone

`mark g p` changes COND by `g` and puts `p` in front of the output. Every operation that reads neither commutes with
it. -/

/-- `s` with COND changed by `g` and with `p` in front of its output history. -/
def mark (g : BitVec 3 → BitVec 3) (p : List OutEvent) (s : State) : State :=
  { s with cond := g s.cond, out := p ++ s.out }

section Mark

variable (g : BitVec 3 → BitVec 3) (p : List OutEvent) (s : State)

@[simp] theorem mark_reg (r : Reg) : (mark g p s).reg r = s.reg r := rfl
@[simp] theorem mark_pc : (mark g p s).pc = s.pc := rfl
@[simp] theorem mark_cond : (mark g p s).cond = g s.cond := rfl
@[simp] theorem mark_runState : (mark g p s).runState = s.runState := rfl
@[simp] theorem mark_hostAbort : (mark g p s).hostAbort = s.hostAbort := rfl
@[simp] theorem mark_inQueue : (mark g p s).inQueue = s.inQueue := rfl
@[simp] theorem mark_inEnded : (mark g p s).inEnded = s.inEnded := rfl
@[simp] theorem mark_pollScript : (mark g p s).pollScript = s.pollScript := rfl
@[simp] theorem mark_cfg : (mark g p s).cfg = s.cfg := rfl
@[simp] theorem mark_rawRead (a : Word) : rawRead a (mark g p s) = rawRead a s := rfl
@[simp] theorem mark_pollAnswer : pollAnswer (mark g p s) = pollAnswer s := rfl

@[simp] theorem setPc_mark (v : Word) : (mark g p s).setPc v = mark g p (s.setPc v) := rfl
@[simp] theorem setRun_mark (r : RunState) : (mark g p s).setRun r = mark g p (s.setRun r) := rfl
@[simp] theorem memWrite_mark (a v : Word) : memWrite a v (mark g p s) = mark g p (memWrite a v s) := rfl
@[simp] theorem trapEntry_mark : trapEntry (mark g p s) = mark g p (trapEntry s) := rfl
@[simp] theorem raiseAbort_mark (c : AbortCause) : raiseAbort c (mark g p s) = mark g p (raiseAbort c s) := rfl
@[simp] theorem haltEngine_mark : haltEngine (mark g p s) = mark g p (haltEngine s) := rfl
@[simp] theorem externalAbort_mark : externalAbort (mark g p s) = mark g p (externalAbort s) := rfl

/-- The flags are overwritten, so the mark on them is gone. -/
@[simp] theorem writeAndFlag_mark (r : Reg) (v : Word) :
    writeAndFlag r v (mark g p s) = mark id p (writeAndFlag r v s) := rfl

@[simp] theorem outByte_mark (b : Byte) : outByte b (mark g p s) = mark g p (outByte b s) := by
  simp [mark, outByte]
@[simp] theorem outBytes_mark (bs : List Byte) : outBytes bs (mark g p s) = mark g p (outBytes bs s) := by
  simp [mark, outBytes]
@[simp] theorem outFlush_mark : outFlush (mark g p s) = mark g p (outFlush s) := by
  simp [mark, outFlush]

/-! The operations that read memory and take input. -/

theorem inByte_mark : inByte (mark g p s) = ((inByte s).1, mark g p (inByte s).2) := by
  obtain ⟨b, rest, hq, -⟩ | ⟨hq, he, hp, -⟩ | ⟨hq, he, hp, -⟩ | ⟨hq, he, -⟩ := inByte_cases s
  · simp [inByte, hq]; rfl
  · simp [inByte, hq, he, hp]
  · simp [inByte, hq, he, hp]
  · simp [inByte, hq, he]

theorem advancePoll_mark : advancePoll (mark g p s) = mark g p (advancePoll s) := by
  unfold advancePoll
  simp only [mark_pollScript]
  split <;> rfl

theorem pollKbsr_mark : pollKbsr (mark g p s) = mark g p (pollKbsr s) := by
  cases h : pollAnswer s with
  | false => simp [pollKbsr, h, advancePoll_mark]
  | true =>
    obtain ⟨b, rest, hq⟩ := exists_of_pollAnswer h
    simp only [pollKbsr, mark_pollAnswer, h, if_true, mark_cfg, advancePoll_mark, memWrite_mark, inByte_mark]
    simp only [inByte, memWrite_inQueue, advancePoll_inQueue, hq, memWrite_mark]

@[simp] theorem memRead_mark (a : Word) : memRead a (mark g p s) = ((memRead a s).1, mark g p (memRead a s).2) := by
  obtain ⟨ha, h⟩ | ⟨ha, -⟩ := memRead_cases a s
  · simp [h, memRead_plain ha]
  · simp [memRead, ha, pollKbsr_mark]

@[simp] theorem stringRead_mark (a : Word) :
    stringRead a (mark g p s) = ((stringRead a s).1, mark g p (stringRead a s).2) := by
  cases h : s.cfg.stringRead <;> simp [stringRead, h]

theorem stringWalk_mark (emit : Word → List Byte) (fuel : Nat) (a : Word) :
    stringWalk emit fuel a (mark g p s) = (stringWalk emit fuel a s).map (mark g p) := by
  induction fuel generalizing a s with
  | zero => rfl
  | succ n ih =>
    simp only [stringWalk, stringRead_mark, outBytes_mark, ih]
    split <;> rfl

theorem putString_mark (emit : Word → List Byte) :
    putString emit (mark g p s) = mapNext (mark g p) (putString emit s) := by
  simp only [putString, mark_reg, stringWalk_mark]
  cases stringWalk emit Config.memWords (s.reg .r0) s <;> simp

theorem execTrap_mark (v : BitVec 8) : execTrap v (mark g p s) = mapNext (mark g p) (execTrap v s) := by
  unfold execTrap
  split <;> simp [getcRoutine, outRoutine, putsRoutine, inRoutine, putspRoutine, haltRoutine, badVectorRoutine,
    putString_mark]

/-- The branch reads COND, so it commutes with a mark on the output alone. -/
theorem execBr_mark_id (nzp : BitVec 3) (off : BitVec 9) :
    execBr nzp off (mark id p s) = mapNext (mark id p) (execBr nzp off s) := by
  cases h : branchTaken nzp s.cond <;> simp [execBr, h, pcRel9]

variable {g} in
/-- An instruction does the same in a marked state, but that a mark on COND is overwritten where the instruction sets
the flags; only BR reads COND (10_state.md R20). -/
theorem exec_mark (i : Instr) (hg : g = id ∨ ∀ nzp off, i ≠ .br nzp off) :
    exec i (mark g p s) = mapNext (mark (if setsFlags i then id else g) p) (exec i s) := by
  cases i with
  | br nzp off =>
    obtain rfl | hbr := hg
    · exact execBr_mark_id p s nzp off
    · exact absurd rfl (hbr nzp off)
  | addReg d a b => rfl
  | addImm d a imm => rfl
  | andReg d a b => rfl
  | andImm d a imm => rfl
  | notReg d a => rfl
  | lea d off => rfl
  | ld d off => simp [exec, setsFlags, execLd, finishLoad, pcRel9]
  | ldr d b off => simp [exec, setsFlags, execLdr, finishLoad, baseOff6]
  | ldi d off => simp [exec, setsFlags, execLdi, finishLoad, indirect9, pcRel9]
  | st r off => rfl
  | str r b off => rfl
  | sti r off => simp [exec, setsFlags, execSti, indirect9, pcRel9]
  | jmp b => rfl
  | jsr off => rfl
  | jsrr b => rfl
  | rti => rfl
  | res => rfl
  | trapGetc => rfl
  | trapOut => simp [exec, setsFlags, execTrapOut, outRoutine]
  | trapPuts => exact putString_mark g p (trapEntry s) putsBytes
  | trapIn => simp [exec, setsFlags, execTrapIn, inRoutine]
  | trapPutsp => exact putString_mark g p (trapEntry s) putspBytes
  | trapHalt => simp [exec, setsFlags, execTrapHalt, haltRoutine]
  | trap v => exact execTrap_mark g p s v

end Mark

/-! ### What an execution can answer -/

theorem putString_answers (emit : Word → List Byte) (s : State) :
    (∃ t, putString emit s = .next t) ∨ putString emit s = .fault .unterminatedString := by
  obtain ⟨t, -, h⟩ | ⟨-, h⟩ := putString_cases emit s
  · exact .inl ⟨_, h⟩
  · exact .inr h

theorem execTrap_answers (v : BitVec 8) (s : State) :
    (∃ t, execTrap v s = .next t) ∨ execTrap v s = .fault .unterminatedString := by
  cases hv : serviceVector v with
  | false => exact .inl ⟨_, execTrap_bad hv s⟩
  | true =>
    obtain rfl | rfl | rfl | rfl | rfl | rfl := serviceVector_eq_true hv
    · exact .inl ⟨_, rfl⟩
    · exact .inl ⟨_, rfl⟩
    · exact putString_answers putsBytes _
    · exact .inl ⟨_, rfl⟩
    · exact putString_answers putspBytes _
    · exact .inl ⟨_, rfl⟩

/-- No instruction is refused, and the only fault one raises is the hang of a string routine. -/
theorem exec_answers (i : Instr) (s : State) :
    (∃ t, exec i s = .next t) ∨ exec i s = .fault .unterminatedString := by
  cases i with
  | trapPuts => exact putString_answers putsBytes _
  | trapPutsp => exact putString_answers putspBytes _
  | trap v => exact execTrap_answers v s
  | _ => exact .inl ⟨_, rfl⟩

/-- Settles O45: a change of COND alone is a mark, which `exec_mark` carries through every instruction but BR, and
`exec_cond` says whether COND was written. -/
theorem onlyBranchesReadTheFlags : Obligations.OnlyBranchesReadTheFlags := by
  intro i s c hbr
  have hmark : exec i { s with cond := c } =
      mapNext (mark (if setsFlags i then id else fun _ => c) []) (exec i s) :=
    exec_mark (g := fun _ => c) [] s i (.inr hbr)
  obtain ⟨t, h⟩ | h := exec_answers i s
  · rw [hmark, h]
    refine ⟨rfl, ?_⟩
    obtain ⟨hi, -⟩ | ⟨hi, hc⟩ := exec_cond h
    · exact .inl (by simp [hi])
    · exact .inr ⟨hc, by simp [hi]⟩
  · rw [hmark, h]
    rfl

/-! ### Nothing reads the output (10_state.md R30) -/

/-- The boundary with its state mapped. -/
def mapBoundary (f : State → State) : Boundary → Boundary
  | .abort s => .abort (f s)
  | .proceed s => .proceed (f s)

section MarkStep

variable (p : List OutEvent) (s : State)

theorem abortOrCount_mark (hold : Bool) :
    abortOrCount hold (mark id p s) = mapBoundary (mark id p) (abortOrCount hold s) := by
  rcases h : s.hostAbort with _ | _ | n
  · simp [abortOrCount, h, mapBoundary]
  · simp [abortOrCount, h, mapBoundary]
  · cases hold
    · simp [abortOrCount, h, mapBoundary]; rfl
    · simp [abortOrCount, h, mapBoundary]

theorem hostBoundary_mark : hostBoundary (mark id p s) = mapBoundary (mark id p) (hostBoundary s) := by
  have hholding : holding (mark id p s) = holding s := rfl
  cases h : s.runState <;> simp [hostBoundary, h, hholding, abortOrCount_mark, mapBoundary]

theorem fetch_mark : fetch (mark id p s) = ((fetch s).1, mark id p (fetch s).2) := by
  simp [fetch]

theorem completeGetc_mark : completeGetc (mark id p s) = mapNext (mark id p) (completeGetc s) := by
  unfold completeGetc
  rw [inByte_mark]
  obtain ⟨_ | _ | _ | _, u⟩ := inByte s <;> simp [finishGetc, resume]

theorem completeIn_mark : completeIn (mark id p s) = mapNext (mark id p) (completeIn s) := by
  unfold completeIn
  rw [inByte_mark]
  obtain ⟨_ | _ | _ | _, u⟩ := inByte s <;> simp [finishIn, resume]

theorem blockStep_mark : blockStep (mark id p s) = mapNext (mark id p) (blockStep s) := by
  cases h : s.runState with
  | running => simp [blockStep, h, instructionStep, fetch_mark, exec_mark]
  | waitGetc => simp [blockStep, h, completeGetc_mark]
  | waitIn => simp [blockStep, h, completeIn_mark]
  | halted => simp [blockStep, h]
  | aborted => simp [blockStep, h]

/-- A step does the same after any other output history. -/
theorem step_mark : step (mark id p s) = mapNext (mark id p) (step s) := by
  unfold step
  rw [hostBoundary_mark]
  cases hostBoundary s with
  | abort u => rfl
  | proceed u => exact blockStep_mark p u

end MarkStep

theorem completeGetc_answers (s : State) : (∃ t, completeGetc s = .next t) ∨ ∃ e, completeGetc s = .fault e := by
  unfold completeGetc
  obtain ⟨_ | _ | _ | _, u⟩ := inByte s <;> simp

theorem completeIn_answers (s : State) : (∃ t, completeIn s = .next t) ∨ ∃ e, completeIn s = .fault e := by
  unfold completeIn
  obtain ⟨_ | _ | _ | _, u⟩ := inByte s <;> simp

theorem blockStep_answers (s : State) : (∃ t, blockStep s = .next t) ∨ ∃ e, blockStep s = .fault e := by
  unfold blockStep
  cases s.runState with
  | running => exact (exec_answers _ _).imp_right fun h => ⟨_, h⟩
  | waitGetc => exact completeGetc_answers s
  | waitIn => exact completeIn_answers s
  | halted => exact .inr ⟨_, rfl⟩
  | aborted => exact .inr ⟨_, rfl⟩

/-- No step is refused. -/
theorem step_answers (s : State) : (∃ t, step s = .next t) ∨ ∃ e, step s = .fault e := by
  unfold step
  cases hostBoundary s with
  | abort u => exact .inl ⟨u, rfl⟩
  | proceed u => exact blockStep_answers u

/-- A state with another output history is a mark on the state with none. -/
theorem withOut_eq_mark (s : State) (o : List OutEvent) : { s with out := o } = mark id o { s with out := [] } := by
  simp [mark]

/-- Settles O48: both runs are the run from the empty output history, marked with the one and the other history
(`step_mark`). -/
theorem nothingReadsTheOutput : Obligations.NothingReadsTheOutput := by
  intro s o
  have hstep (h : List OutEvent) : step { s with out := h } = mapNext (mark id h) (step { s with out := [] }) := by
    rw [withOut_eq_mark, step_mark]
  have hs : step s = mapNext (mark id s.out) (step { s with out := [] }) := hstep s.out
  rw [hs, hstep o]
  obtain ⟨u, h⟩ | ⟨e, h⟩ := step_answers { s with out := [] } <;> rw [h]
  · exact ⟨u.out, rfl, rfl⟩
  · rfl

end Sys2Proof.Machine

namespace Sys2Proof.Machine

/-! ### The input, the parameters and the end-of-input mark (10_state.md R29, 00_scope.md R7) -/

/-- Input was taken from the head of the queue alone, and no parameter and no end-of-input mark changed. -/
def InputFrame (s t : State) : Prop :=
  (∃ l, s.inQueue = l ++ t.inQueue) ∧ t.cfg = s.cfg ∧ t.inEnded = s.inEnded

theorem InputFrame.refl (s : State) : InputFrame s s := ⟨⟨[], rfl⟩, rfl, rfl⟩

theorem InputFrame.trans {s t u : State} (h : InputFrame s t) (k : InputFrame t u) : InputFrame s u := by
  obtain ⟨⟨l, hl⟩, hcfg, hend⟩ := h
  obtain ⟨⟨l', hl'⟩, kcfg, kend⟩ := k
  exact ⟨⟨l ++ l', by rw [hl, hl', List.append_assoc]⟩, kcfg.trans hcfg, kend.trans hend⟩

theorem PollFrame.inputFrame {s u : State} (h : PollFrame s u) : InputFrame s u := ⟨h.inQueue, h.cfg, h.inEnded⟩

/-- An instruction takes input through its arbitered reads alone. -/
theorem exec_inputFrame {i : Instr} {s t : State} (h : exec i s = .next t) : InputFrame s t := by
  cases exec_effect h with
  | writesFlagged d v u _ _ hu => exact hu.inputFrame
  | stores a v u _ hu => exact hu.inputFrame
  | fallsThrough => exact .refl s
  | jumps => exact .refl s
  | calls => exact .refl s
  | illegal => exact .refl s
  | traps u t _ hu _ hend => cases hend <;> exact hu.inputFrame

theorem inputFrame_of_tail {s t : State} {b : Byte} {rest : List Byte} (hq : s.inQueue = b :: rest)
    (ht : t.inQueue = rest) (hcfg : t.cfg = s.cfg) (hend : t.inEnded = s.inEnded) : InputFrame s t :=
  ⟨⟨[b], by rw [hq, ht]; rfl⟩, hcfg, hend⟩

theorem completeGetc_inputFrame {s t : State} (h : completeGetc s = .next t) : InputFrame s t := by
  obtain ⟨b, rest, hq, rfl⟩ | ⟨-, -, -, rfl⟩ := completeGetc_cases h
  · exact inputFrame_of_tail hq rfl rfl rfl
  · exact .refl s

theorem completeIn_inputFrame {s t : State} (h : completeIn s = .next t) : InputFrame s t := by
  obtain ⟨b, rest, hq, rfl⟩ | ⟨-, -, -, rfl⟩ := completeIn_cases h
  · exact inputFrame_of_tail hq rfl rfl rfl
  · exact .refl s

theorem step_inputFrame {s t : State} (h : step s = .next t) : InputFrame s t := by
  obtain ⟨-, -, -, -, rfl⟩ | ⟨s1, hs1, hblock⟩ := step_cases h
  · exact .refl s
  · have hcount : InputFrame s s1 := by obtain rfl | ⟨n, -, rfl⟩ := hs1 <;> exact .refl _
    refine hcount.trans ?_
    obtain ⟨-, he⟩ | ⟨-, hc⟩ | ⟨-, hc⟩ := hblock
    · have hfetch : InputFrame s1 (fetch s1).2 := (fetch_frame s1).inputFrame
      exact hfetch.trans (exec_inputFrame he)
    · exact completeGetc_inputFrame hc
    · exact completeIn_inputFrame hc

/-- Settles O49: the statement is `step_inputFrame`. -/
theorem inputIsTakenFromTheHeadAndParametersStay : Obligations.InputIsTakenFromTheHeadAndParametersStay := by
  intro s t h
  exact step_inputFrame h

/-! ### The step of a running block (10_state.md R27) -/

/-- In RUNNING the block's own step fetches through the arbiter and executes what the word decodes to. -/
theorem blockStep_running {s : State} (hrun : s.runState = .running) :
    blockStep s = exec (decode (memRead s.pc s).1) { (memRead s.pc s).2 with pc := s.pc + 1 } := by
  rw [blockStep, hrun]
  rfl

/-- Away from KBSR the fetched word is the plain word at the pc. -/
theorem blockStep_running_plain {s : State} (hrun : s.runState = .running) (hpc : s.pc ≠ Config.kbsrAddr) :
    blockStep s = exec (decode (rawRead s.pc s)) { s with pc := s.pc + 1 } := by
  rw [blockStep_running hrun, memRead_plain hpc]

/-- A pending abort with a count left counts one off and lets the step of a running block come first (log 17). -/
theorem step_counted {s : State} {n : Nat} (hrun : s.runState = .running) (ha : s.hostAbort = some (n + 1)) :
    step s = blockStep { s with hostAbort := some n } := by
  have hb : hostBoundary s = .proceed { s with hostAbort := some n } := by
    simp [hostBoundary, hrun, abortOrCount, ha]
  rw [step, hb]

/-- Settles O32: the boundary lets the block's own step come first, and that step fetches and executes. -/
theorem stepRunsTheDecodedInstruction : Obligations.StepRunsTheDecodedInstruction := by
  intro s hrun
  refine ⟨fun ha => ?_, fun ha hpc => ?_, fun n ha => ?_⟩
  · rw [step_of_no_abort ha, blockStep_running hrun]
  · rw [step_of_no_abort ha, blockStep_running_plain hrun hpc]
  · rw [step_counted hrun ha]
    exact blockStep_running (s := { s with hostAbort := some n }) hrun

/-! ### States without a step (10_state.md R28, 20_memory.md R45) -/

theorem inByte_hold {s : State} (hq : s.inQueue = []) (he : s.inEnded = false) : inByte s = (.hold, s) := by
  simp [inByte, hq, he]

theorem inByte_ended {s : State} (hq : s.inQueue = []) (he : s.inEnded = true) (hp : s.cfg.eofPolicy = .stuck) :
    inByte s = (.ended, s) := by
  simp [inByte, hq, he, hp]

theorem hostBoundary_terminal {s : State} (h : Terminal s) : hostBoundary s = .proceed s := by
  obtain h | h := h <;> simp [hostBoundary, h]

/-- What a wait without an abort pending stops with when no byte is to be had. -/
theorem step_wait_hold {s : State} (hw : s.runState = .waitGetc ∨ s.runState = .waitIn) (ha : s.hostAbort = none)
    (hq : s.inQueue = []) (he : s.inEnded = false) : step s = .fault .waitingForInput := by
  rw [step_of_no_abort ha]
  obtain hw | hw := hw
  · simp [blockStep, hw, completeGetc, inByte_hold hq he]
  · simp [blockStep, hw, completeIn, inByte_hold hq he]

theorem step_wait_ended {s : State} (hw : s.runState = .waitGetc ∨ s.runState = .waitIn) (ha : s.hostAbort = none)
    (hq : s.inQueue = []) (he : s.inEnded = true) (hp : s.cfg.eofPolicy = .stuck) :
    step s = .fault .inputEnded := by
  rw [step_of_no_abort ha]
  obtain hw | hw := hw
  · simp [blockStep, hw, completeGetc, inByte_ended hq he hp]
  · simp [blockStep, hw, completeIn, inByte_ended hq he hp]

/-- After the end of input the host supplies no byte. -/
theorem hostSupply_ended {s : State} (he : s.inEnded = true) (b : Byte) : hostSupply b s = s := by
  simp [hostSupply, he]

theorem step_halted {s : State} (h : s.runState = .halted) : step s = .fault .halted := by
  simp [step, hostBoundary_terminal (.inl h), blockStep, h]

theorem step_aborted {s : State} (h : s.runState = .aborted) : step s = .fault .aborted := by
  simp [step, hostBoundary_terminal (.inr h), blockStep, h]

/-- Settles O36. -/
theorem terminalAndHoldingStatesHaveNoStep : Obligations.TerminalAndHoldingStatesHaveNoStep := by
  refine ⟨fun s => step_halted, fun s => step_aborted, fun s => step_wait_hold, fun s hw ha hq he hp => ?_⟩
  have hstop : step s = .fault .inputEnded := step_wait_ended hw ha hq he hp
  exact ⟨hstop, fun b => by rw [hostSupply_ended he, hstop]⟩

/-! ### Reset (10_state.md R32) -/

theorem resetWith_reg (p : Params) (r : Reg) : (State.resetWith p).reg r = p.gprReset := by
  cases r <;> rfl

theorem resetWith_rawRead (p : Params) (a : Word) : rawRead a (State.resetWith p) = 0 := rfl

/-- Settles O40. -/
theorem resetLeavesTheListedValues : Obligations.ResetLeavesTheListedValues := by
  refine ⟨fun p => ⟨resetWith_reg p, rfl, rfl, rfl, rfl, rfl, resetWith_rawRead p⟩, rfl, rfl, rfl, rfl, rfl, ?_⟩
  decide

/-- A legal COND_RESET is one of the three flags. -/
theorem oneHot_condReset {p : Params} (h : p.wf = true) : OneHot p.condReset := by
  simp only [Params.wf, Bool.and_eq_true, Bool.or_eq_true, beq_iff_eq] at h
  obtain ⟨⟨hcond, -⟩, -⟩ := h
  exact or_assoc.1 hcond

theorem resetWith_inv {p : Params} (h : p.wf = true) : Inv (State.resetWith p) :=
  ⟨rfl, oneHot_condReset h, rfl⟩

/-- Settles O41: the default parameters are legal too. -/
theorem resetMeetsTheInvariant : Obligations.ResetMeetsTheInvariant :=
  ⟨resetWith_inv (p := defaultParams) (by decide), fun _ => resetWith_inv⟩

/-! ### A placed word (log 18) -/

theorem tableWords_word (w : Word) : tableWords 16 w.toNat = [w] := by
  simp [tableWords, Nat.mod_eq_of_lt w.isLt]

theorem withFetchWord_word (s : State) (w : Word) : s.withFetchWord 16 w.toNat = placeFetchWord s w := by
  rw [State.withFetchWord, tableWords_word]

theorem fetchAddress_ne_kbsr (s : State) : fetchAddress s ≠ Config.kbsrAddr := by
  unfold fetchAddress
  split
  case isTrue h => rw [h]; decide
  case isFalse h => exact h

theorem fetchAddress_succ (s : State) : fetchAddress s + 1 = if s.pc = 0xFE00 then 0xFE02 else s.pc + 1 := by
  unfold fetchAddress Config.kbsrAddr
  split
  case isTrue h => rw [h]; rfl
  case isFalse => rfl

/-- In canonical memory, placing a word replaces the word at the fetch address and no other. -/
theorem rawRead_placeFetchWord {s : State} (hm : s.mem.wf = true) (w b : Word) :
    rawRead b (placeFetchWord s w) = if b = fetchAddress s then w else rawRead b s :=
  rawRead_memWrite (s := readyToFetch s) hm (fetchAddress s) w b

/-- The step after a word was placed executes that word. -/
theorem step_placeFetchWord {s : State} (hm : s.mem.wf = true) (w : Word) :
    step (placeFetchWord s w) = exec (decode w) { placeFetchWord s w with pc := fetchAddress s + 1 } := by
  have hplain : blockStep (placeFetchWord s w) =
      exec (decode (rawRead (fetchAddress s) (placeFetchWord s w)))
        { placeFetchWord s w with pc := fetchAddress s + 1 } :=
    blockStep_running_plain rfl (fetchAddress_ne_kbsr s)
  rw [step_of_no_abort rfl, hplain, rawRead_placeFetchWord hm, if_pos rfl]

/-- Settles O54: the step is that of `step_placeFetchWord`, and the frame is that of one memory write. -/
theorem aPlacedWordRunsNext : Obligations.APlacedWordRunsNext := by
  intro s w hm
  refine ⟨{ placeFetchWord s w with pc := fetchAddress s + 1 }, ?_, fetchAddress_succ s, rfl, fun _ => rfl, rfl,
    fun a => ?_, ⟨rfl, rfl, rfl⟩, rfl⟩
  · rw [withFetchWord_word, step_placeFetchWord hm]
  · have haddr : fetchAddress s + 1 - 1 = fetchAddress s := BitVec.add_sub_cancel _ _
    rw [haddr]
    exact rawRead_placeFetchWord hm w a

end Sys2Proof.Machine

namespace Sys2Proof.Machine

open Sys2Proof.Claims

/-! ### Canonical memories (10_state.md R26, log 20) -/

theorem Memory.wfFrom_cons {lo k : Nat} {v : Word} {m : Memory} :
    Memory.wfFrom lo ((k, v) :: m) = true ↔
      lo ≤ k ∧ k < Config.memWords ∧ v ≠ Memory.unlisted ∧ Memory.wfFrom (k + 1) m = true := by
  simp [Memory.wfFrom, and_assoc]

@[simp] theorem Memory.read_head (k : Nat) (v : Word) (m : Memory) : Memory.read ((k, v) :: m) k = v := by
  simp [Memory.read]

theorem Memory.read_tail {k a : Nat} (h : a ≠ k) (v : Word) (m : Memory) : Memory.read ((k, v) :: m) a = m.read a := by
  simp [Memory.read, h.symm]

/-- Two memories read the same word at every address of the machine. -/
def Memory.ReadsAlike (m m' : Memory) : Prop := ∀ a, a < Config.memWords → m.read a = m'.read a

theorem Memory.ReadsAlike.symm {m m' : Memory} (h : m.ReadsAlike m') : m'.ReadsAlike m :=
  fun a ha => (h a ha).symm

/-- A canonical list whose addresses all lie above the first cell of another does not read like it. -/
theorem Memory.not_readsAlike_of_lt {lo lo' k : Nat} {v : Word} {m m' : Memory}
    (hm : Memory.wfFrom lo ((k, v) :: m) = true) (hm' : Memory.wfFrom lo' m' = true) (hk : k < lo') :
    ¬ Memory.ReadsAlike ((k, v) :: m) m' := by
  intro h
  obtain ⟨-, hkw, hv, -⟩ := Memory.wfFrom_cons.1 hm
  have hread : v = m'.read k := by simpa using h k hkw
  exact hv (hread.trans (Memory.read_below hm' hk))

/-- Canonical lists that start with the same cell and read alike have tails that read alike. -/
theorem Memory.readsAlike_tail {k : Nat} {v v' : Word} {m m' : Memory} (hm : Memory.wfFrom (k + 1) m = true)
    (hm' : Memory.wfFrom (k + 1) m' = true) (h : Memory.ReadsAlike ((k, v) :: m) ((k, v') :: m')) :
    m.ReadsAlike m' := by
  intro a ha
  by_cases hak : a = k
  · rw [Memory.read_below hm (by omega), Memory.read_below hm' (by omega)]
  · simpa only [Memory.read_tail hak] using h a ha

/-- Canonical lists that read alike are equal: neither can list a first address that the other does not. -/
theorem Memory.eq_of_readsAlike {lo lo' : Nat} {m m' : Memory} (hm : Memory.wfFrom lo m = true)
    (hm' : Memory.wfFrom lo' m' = true) (h : m.ReadsAlike m') : m = m' := by
  induction m generalizing lo lo' m' with
  | nil =>
    cases m' with
    | nil => rfl
    | cons c' rest' =>
      exact absurd h.symm (Memory.not_readsAlike_of_lt hm' (lo' := c'.1 + 1) rfl (Nat.lt_succ_self _))
  | cons c rest ih =>
    obtain ⟨k, v⟩ := c
    cases m' with
    | nil => exact absurd h (Memory.not_readsAlike_of_lt hm (lo' := k + 1) rfl (Nat.lt_succ_self _))
    | cons c' rest' =>
      obtain ⟨k', v'⟩ := c'
      obtain ⟨-, hkw, hv, hrest⟩ := Memory.wfFrom_cons.1 hm
      obtain ⟨-, hkw', hv', hrest'⟩ := Memory.wfFrom_cons.1 hm'
      obtain hlt | rfl | hlt := Nat.lt_trichotomy k k'
      · have hstart' : Memory.wfFrom k' ((k', v') :: rest') = true :=
          Memory.wfFrom_cons.2 ⟨le_refl _, hkw', hv', hrest'⟩
        exact absurd h (Memory.not_readsAlike_of_lt hm hstart' hlt)
      · have hcell : v = v' := by simpa using h k hkw
        rw [hcell, ih hrest hrest' (Memory.readsAlike_tail hrest hrest' h)]
      · have hstart : Memory.wfFrom k ((k, v) :: rest) = true :=
          Memory.wfFrom_cons.2 ⟨le_refl _, hkw, hv, hrest⟩
        exact absurd h.symm (Memory.not_readsAlike_of_lt hm' hstart hlt)

/-- Settles O14: every address of the machine is the value of a 16-bit word. -/
theorem equalReadsMakeEqualMemories : Obligations.EqualReadsMakeEqualMemories := by
  intro m m' hm hm' h
  have halike : m.ReadsAlike m' := fun a ha => by
    have hword : (BitVec.ofNat 16 a).toNat = a := Nat.mod_eq_of_lt ha
    simpa only [hword] using h (BitVec.ofNat 16 a)
  exact Memory.eq_of_readsAlike hm hm' halike

/-! ### The poll of KBSR (20_memory.md R43, R44) -/

theorem memRead_kbsr (s : State) :
    memRead Config.kbsrAddr s = (rawRead Config.kbsrAddr (pollKbsr s), pollKbsr s) :=
  if_pos rfl

/-- A poll that answers true: KBSR takes the ready word, and the head of the input moves into KBDR. -/
theorem pollKbsr_takes_byte {s : State} {b : Byte} {rest : List Byte} (hm : s.mem.wf = true)
    (hq : s.inQueue = b :: rest) (ha : pollAnswer s = true) :
    rawRead Config.kbsrAddr (pollKbsr s) = s.cfg.kbsrReady ∧ rawRead Config.kbdrAddr (pollKbsr s) = zext8 b ∧
      (pollKbsr s).inQueue = rest := by
  obtain ⟨b', rest', -, hq', hpoll⟩ | ⟨hfalse, -⟩ := pollKbsr_cases s
  · obtain ⟨rfl, rfl⟩ := List.cons.inj (hq.symm.trans hq')
    have hadv : (advancePoll s).mem.wf = true := (advancePoll_frame s).mem_wf hm
    have hready : (memWrite Config.kbsrAddr s.cfg.kbsrReady (advancePoll s)).mem.wf = true := memWrite_wf _ _ hadv
    rw [hpoll]
    refine ⟨?_, ?_, rfl⟩
    · rw [rawRead_memWrite_ne _ _ (by decide)]
      exact (rawRead_memWrite hadv _ _ _).trans (if_pos rfl)
    · exact (rawRead_memWrite (s := { memWrite Config.kbsrAddr s.cfg.kbsrReady (advancePoll s) with inQueue := rest })
        hready _ _ _).trans (if_pos rfl)
  · simp [ha] at hfalse

/-- A poll that answers false: KBSR is cleared, KBDR and the input stay. -/
theorem pollKbsr_clears {s : State} (hm : s.mem.wf = true) (ha : pollAnswer s = false) :
    rawRead Config.kbsrAddr (pollKbsr s) = 0 ∧ rawRead Config.kbdrAddr (pollKbsr s) = rawRead Config.kbdrAddr s ∧
      (pollKbsr s).inQueue = s.inQueue := by
  obtain ⟨_, _, htrue, -, -⟩ | ⟨-, hpoll⟩ := pollKbsr_cases s
  · simp [ha] at htrue
  · have hadv : (advancePoll s).mem.wf = true := (advancePoll_frame s).mem_wf hm
    rw [hpoll]
    refine ⟨by rw [rawRead_memWrite hadv, if_pos rfl], ?_, advancePoll_inQueue s⟩
    rw [rawRead_memWrite_ne _ _ (by decide), rawRead, advancePoll_mem, rawRead]

/-- What KBSR reads after its poll, for either answer. -/
theorem rawRead_kbsr_pollKbsr {s : State} (hm : s.mem.wf = true) :
    rawRead Config.kbsrAddr (pollKbsr s) = if pollAnswer s then s.cfg.kbsrReady else 0 := by
  cases ha : pollAnswer s with
  | false => exact (pollKbsr_clears hm ha).1
  | true =>
    obtain ⟨b, rest, hq⟩ := exists_of_pollAnswer ha
    exact (pollKbsr_takes_byte hm hq ha).1

/-- With a byte pending, what KBDR reads after the poll of KBSR, for either answer. -/
theorem rawRead_kbdr_pollKbsr {s : State} {b : Byte} {rest : List Byte} (hm : s.mem.wf = true)
    (hq : s.inQueue = b :: rest) :
    rawRead Config.kbdrAddr (pollKbsr s) = if pollAnswer s then zext8 b else rawRead Config.kbdrAddr s := by
  cases ha : pollAnswer s with
  | false =>
    obtain ⟨-, hkbdr, -⟩ := pollKbsr_clears hm ha
    exact hkbdr
  | true =>
    obtain ⟨-, hkbdr, -⟩ := pollKbsr_takes_byte hm hq ha
    exact hkbdr

/-- A write makes no difference to the answer of a poll. -/
theorem pollAnswer_memWrite (a v : Word) (s : State) : pollAnswer (memWrite a v s) = pollAnswer s := rfl

/-- Settles O13: the write is one cell of memory, and the poll of the next KBSR read answers as it would have before it. -/
theorem memoryWriteSetsExactlyItsWord : Obligations.MemoryWriteSetsExactlyItsWord := by
  intro s a v hm
  refine ⟨memWrite_wf a v hm, rawRead_memWrite hm a v, rfl, ?_, fun b rest hq => ?_⟩
  · have hkbsr := rawRead_kbsr_pollKbsr (memWrite_wf Config.kbsrAddr v hm)
    rw [pollAnswer_memWrite] at hkbsr
    exact (congrArg Prod.fst (memRead_kbsr _)).trans hkbsr
  · have hkbdr := rawRead_kbdr_pollKbsr (memWrite_wf Config.kbdrAddr v hm) hq
    rw [pollAnswer_memWrite, rawRead_memWrite hm, if_pos rfl] at hkbdr
    exact (congrArg (rawRead _ ·.2) (memRead_kbsr _)).trans hkbdr

theorem PollFrame.sameRun {s t : State} (h : PollFrame s t) (hout : t.out = s.out) : SameRun s t :=
  ⟨h.runState, h.abortCause, hout, h.inEnded, h.hostAbort, h.cfg⟩

/-- Settles O15: the two answers of the poll, with the frame of every arbitered read. -/
theorem onlyAKbsrReadPolls : Obligations.OnlyAKbsrReadPolls := by
  intro s hm
  have hframe := pollKbsr_frame s
  exact ⟨fun a ha => memRead_plain ha s, pollAnswer_nil, pollKbsr s, memRead_kbsr s,
    fun b rest hq ha => pollKbsr_takes_byte hm hq ha, pollKbsr_clears hm, hframe.rawRead, hframe.reg, hframe.pc,
    hframe.cond, hframe.sameRun (pollKbsr_out s)⟩

/-- With a byte pending, an answer fixed by the host is the poll's answer (log 7). -/
theorem pollAnswer_scripted {s : State} {b : Byte} {rest : List Byte} {answer : Bool} {script : List Bool}
    (hq : s.inQueue = b :: rest) (hs : s.pollScript = answer :: script) : pollAnswer s = answer := by
  simp [pollAnswer, hq, hs]

@[simp] theorem advancePoll_pollScript (s : State) : (advancePoll s).pollScript = s.pollScript.tail := by
  obtain ⟨_, _, hs, h⟩ | ⟨hs, h⟩ := advancePoll_cases s <;> simp [h, hs]

/-- A poll uses up the head of the answers that the host fixed. -/
@[simp] theorem pollKbsr_pollScript (s : State) : (pollKbsr s).pollScript = s.pollScript.tail := by
  obtain ⟨_, _, -, -, h⟩ | ⟨-, h⟩ := pollKbsr_cases s <;> simp [h]

/-- Settles O16: the first poll leaves the second byte at the head of the input and the second answer at the head of the
script. -/
theorem twoKbsrReadsConsumeTwoBytes : Obligations.TwoKbsrReadsConsumeTwoBytes := by
  intro s b1 b2 rest script hm hq hs
  obtain ⟨hkbsr, hfirst, hq1⟩ := pollKbsr_takes_byte hm hq (pollAnswer_scripted hq hs)
  have hm1 : (pollKbsr s).mem.wf = true := (pollKbsr_frame s).mem_wf hm
  have hs1 : (pollKbsr s).pollScript = true :: script := by simp [hs]
  obtain ⟨-, hsecond, hq2⟩ := pollKbsr_takes_byte hm1 hq1 (pollAnswer_scripted hq1 hs1)
  exact ⟨hkbsr, hfirst, hsecond, hq2⟩

/-! ### STR, and the load or fetch that follows it (20_memory.md R54, R57) -/

theorem exec_str (r b : Reg) (off : BitVec 6) (s : State) :
    exec (.str r b off) s = .next (memWrite (s.reg b + off.signExtend 16) (s.reg r) s) := by
  simp only [exec, execStr, baseOff6, sext_eq_signExtend]

theorem exec_ldr (d b : Reg) (off : BitVec 6) (s : State) :
    exec (.ldr d b off) s = .next (finishLoad d (memRead (s.reg b + off.signExtend 16) s)) := by
  simp only [exec, execLdr, baseOff6, sext_eq_signExtend]

/-- Settles O20: STR leaves the base register, so LDR reads the written address, and away from KBSR it reads plainly. -/
theorem loadAfterStoreGivesTheStoredWord : Obligations.LoadAfterStoreGivesTheStoredWord := by
  intro s t r d b off hm hkbsr hstore
  cases (exec_str r b off s).symm.trans hstore
  have hread := memRead_plain hkbsr (memWrite (s.reg b + off.signExtend 16) (s.reg r) s)
  rw [rawRead_memWrite hm, if_pos rfl] at hread
  refine ⟨writeAndFlag d (s.reg r) (memWrite (s.reg b + off.signExtend 16) (s.reg r) s), ?_, by simp,
    flagMatches_flagOf _, fun _ => rfl⟩
  rw [exec_ldr, memWrite_reg, hread, finishLoad]

/-- Settles O34: the store is made at the pc, which the next fetch reads plainly. -/
theorem aStoreIsSeenByTheNextFetch : Obligations.AStoreIsSeenByTheNextFetch := by
  intro s t r b off hm ⟨hrun, habort⟩ hpc haddr hstore
  rw [exec_str, haddr] at hstore
  cases hstore
  have hword : rawRead s.pc (memWrite s.pc (s.reg r) s) = s.reg r := by rw [rawRead_memWrite hm, if_pos rfl]
  have hplain : blockStep (memWrite s.pc (s.reg r) s) =
      exec (decode (rawRead s.pc (memWrite s.pc (s.reg r) s)))
        { memWrite s.pc (s.reg r) s with pc := s.pc + 1 } := blockStep_running_plain hrun hpc
  rw [step_of_no_abort (s := memWrite s.pc (s.reg r) s) habort, hplain, hword, memWrite_pc]

/-! ### Strings at KBSR (20_memory.md R47) -/

theorem stringRead_arbitered {s : State} (h : s.cfg.stringRead = .arbitered) (a : Word) :
    stringRead a s = memRead a s := by
  simp [stringRead, h]

/-- A string whose first word reads zero is empty: only the flush goes out. -/
theorem putString_empty {s u : State} (emit : Word → List Byte) (h : stringRead (s.reg .r0) s = (0, u)) :
    putString emit s = .next (outFlush u) := by
  have hwalk := stringWalk_stop (emit := emit) (fuel := Config.memWords) (by decide) (congrArg Prod.fst h)
  rw [h] at hwalk
  rw [putString, hwalk]

/-- A nonzero first word with a zero word after it is put out alone, and then the flush. -/
theorem putString_single {s u : State} {w : Word} (emit : Word → List Byte)
    (hfirst : stringRead (s.reg .r0) s = (w, u)) (hw : w ≠ 0)
    (hnext : stringRead (s.reg .r0 + 1) (outBytes (emit w) u) = (0, outBytes (emit w) u)) :
    putString emit s = .next (outFlush (outBytes (emit w) u)) := by
  have hgo := stringWalk_go (emit := emit) (fuel := Config.memWords) (a := s.reg .r0) (s := s) (by decide)
    (by rw [hfirst]; exact hw)
  have hstop := stringWalk_stop (emit := emit) (fuel := Config.memWords - 1) (by decide) (congrArg Prod.fst hnext)
  rw [hfirst, hstop, hnext] at hgo
  rw [putString, hgo]

/-- With no byte pending, an arbitered string at KBSR ends at the cleared KBSR. -/
theorem putString_kbsr_empty {s : State} (emit : Word → List Byte) (hm : s.mem.wf = true)
    (hc : s.cfg.stringRead = .arbitered) (hr0 : s.reg .r0 = Config.kbsrAddr) (hq : s.inQueue = []) :
    putString emit s = .next (outFlush (pollKbsr s)) := by
  obtain ⟨hkbsr, -, -⟩ := pollKbsr_clears hm (pollAnswer_nil hq)
  exact putString_empty emit (by rw [hr0, stringRead_arbitered hc, memRead_kbsr, hkbsr])

/-- With a poll that answers true and a zero word at 0xFE01, an arbitered string at KBSR is the ready word alone. -/
theorem putString_kbsr_ready {s : State} {b : Byte} {rest : List Byte} (emit : Word → List Byte)
    (hm : s.mem.wf = true) (hc : s.cfg.stringRead = .arbitered) (hr0 : s.reg .r0 = Config.kbsrAddr)
    (hq : s.inQueue = b :: rest) (ha : pollAnswer s = true) (hready : s.cfg.kbsrReady ≠ 0)
    (hzero : rawRead 0xFE01 s = 0) :
    putString emit s = .next (outFlush (outBytes (emit s.cfg.kbsrReady) (pollKbsr s))) := by
  obtain ⟨hkbsr, -, -⟩ := pollKbsr_takes_byte hm hq ha
  have hfirst : stringRead (s.reg .r0) s = (s.cfg.kbsrReady, pollKbsr s) := by
    rw [hr0, stringRead_arbitered hc, memRead_kbsr, hkbsr]
  refine putString_single emit hfirst hready ?_
  have hnext : rawRead 0xFE01 (outBytes (emit s.cfg.kbsrReady) (pollKbsr s)) = 0 := by
    rw [outBytes_rawRead, (pollKbsr_frame s).rawRead _ (by decide) (by decide), hzero]
  rw [hr0, show Config.kbsrAddr + 1 = 0xFE01 from rfl, stringRead_plain (.inr (by decide)), hnext]

/-- What an empty arbitered string at KBSR leaves after trap entry, for PUTS and PUTSP alike. -/
theorem putString_trapEntry_kbsr_empty {s : State} (emit : Word → List Byte) (hm : s.mem.wf = true)
    (hc : s.cfg.stringRead = .arbitered) (hr0 : s.reg .r0 = Config.kbsrAddr) (hq : s.inQueue = []) :
    ∃ t, putString emit (trapEntry s) = .next t ∧ t.out = s.out ++ [.flush] ∧ rawRead Config.kbsrAddr t = 0 ∧
      t.reg .r7 = s.pc ∧ t.pc = s.pc ∧ t.cond = s.cond := by
  have hframe := pollKbsr_frame (trapEntry s)
  obtain ⟨hkbsr, -, -⟩ := pollKbsr_clears (s := trapEntry s) hm (pollAnswer_nil hq)
  refine ⟨_, putString_kbsr_empty emit hm hc hr0 hq, by simp, hkbsr, ?_, hframe.pc, hframe.cond⟩
  simp [hframe.reg]

/-- Settles O26: PUTS and PUTSP are the string routine after trap entry. -/
theorem arbiteredStringsPollAtKbsr : Obligations.ArbiteredStringsPollAtKbsr := by
  intro s hm hc hr0
  refine ⟨putString_trapEntry_kbsr_empty putsBytes hm hc hr0, putString_trapEntry_kbsr_empty putspBytes hm hc hr0,
    fun b rest script hq hs hready hzero => ?_⟩
  have ha : pollAnswer (trapEntry s) = true := pollAnswer_scripted hq hs
  have hframe := pollKbsr_frame (trapEntry s)
  obtain ⟨-, hkbdr, hrest⟩ := pollKbsr_takes_byte (s := trapEntry s) hm hq ha
  refine ⟨_, putString_kbsr_ready putsBytes hm hc hr0 hq ha hready hzero, ?_, hrest, hkbdr, ?_,
    hframe.pc, hframe.cond⟩
  · simp [putsBytes, lowByte, lo]
  · simp [hframe.reg]

/-! ### The end of input under EOF_POLICY = value 0xFFFF (20_memory.md R45) -/

theorem inByte_eof {s : State} (hq : s.inQueue = []) (he : s.inEnded = true) (hp : s.cfg.eofPolicy = .valueFFFF) :
    inByte s = (.eof, s) := by
  simp [inByte, hq, he, hp]

theorem flagOf_FFFF : flagOf 0xFFFF = condN := by decide

/-- Settles O30: each wait completes with the marker EOF, in the state that `finishGetc` or `finishIn` leaves. -/
theorem endOfInputGivesFFFFUnderThatPolicy : Obligations.EndOfInputGivesFFFFUnderThatPolicy := by
  intro s ha hq he hp
  have hin := inByte_eof hq he hp
  rw [step_of_no_abort ha]
  refine ⟨fun hw => ⟨finishGetc 0xFFFF s, ?_, ?_, flagOf_FFFF, rfl, rfl, fun _ hr => finishGetc_reg hr _ _, rfl,
      fun _ => rfl, rfl, rfl, rfl⟩,
    fun hw => ⟨finishIn 0xFF 0xFFFF s, ?_, ?_, flagOf_FFFF, rfl, ?_, fun _ hr => finishIn_reg hr _ _ _, rfl,
      fun _ => rfl, rfl, rfl, rfl⟩⟩
  · simp [blockStep, hw, completeGetc, hin]
  · simp [finishGetc]
  · simp [blockStep, hw, completeIn, hin]
  · simp [finishIn]
  · simp [finishIn]

end Sys2Proof.Machine

namespace Sys2Proof

open Sys2Proof.Laws

/-! ### The fields of a word written by its format (30_encoding.md R65)

One lemma per layout, from the opcode down. Each field function reads back the part that stands at its bits. -/

theorem fields_offset9 (op : BitVec 4) (x : BitVec 3) (o : BitVec 9) :
    opcodeField (op ++ x ++ o) = op ∧ bits11to9 (op ++ x ++ o) = x ∧ offset9Field (op ++ x ++ o) = o := by
  simp (disch := omega) only [opcodeField, bits11to9, offset9Field, BitVec.extractLsb'_append_eq_of_le,
    BitVec.extractLsb'_append_eq_of_add_le, BitVec.extractLsb'_eq_self, Nat.reduceSub, and_self]

theorem fields_offset6 (op : BitVec 4) (x y : BitVec 3) (o : BitVec 6) :
    opcodeField (op ++ x ++ y ++ o) = op ∧ bits11to9 (op ++ x ++ y ++ o) = x ∧ bits8to6 (op ++ x ++ y ++ o) = y ∧
      offset6Field (op ++ x ++ y ++ o) = o := by
  simp (disch := omega) only [opcodeField, bits11to9, bits8to6, offset6Field, BitVec.extractLsb'_append_eq_of_le,
    BitVec.extractLsb'_append_eq_of_add_le, BitVec.extractLsb'_eq_self, Nat.reduceSub, and_self]

theorem fields_imm5 (op : BitVec 4) (x y : BitVec 3) (f : BitVec 1) (i : BitVec 5) :
    opcodeField (op ++ x ++ y ++ f ++ i) = op ∧ bits11to9 (op ++ x ++ y ++ f ++ i) = x ∧
      bits8to6 (op ++ x ++ y ++ f ++ i) = y ∧ immFlag (op ++ x ++ y ++ f ++ i) = f.getLsbD 0 ∧
      imm5Field (op ++ x ++ y ++ f ++ i) = i := by
  simp (disch := omega) only [opcodeField, bits11to9, bits8to6, immFlag, imm5Field, BitVec.getLsbD_append,
    BitVec.extractLsb'_append_eq_of_le, BitVec.extractLsb'_append_eq_of_add_le, BitVec.extractLsb'_eq_self,
    Nat.reduceSub, Nat.reduceLT, and_self, if_true, if_false]

theorem fields_sr2 (op : BitVec 4) (x y : BitVec 3) (f : BitVec 1) (u : BitVec 2) (z : BitVec 3) :
    opcodeField (op ++ x ++ y ++ f ++ u ++ z) = op ∧ bits11to9 (op ++ x ++ y ++ f ++ u ++ z) = x ∧
      bits8to6 (op ++ x ++ y ++ f ++ u ++ z) = y ∧ immFlag (op ++ x ++ y ++ f ++ u ++ z) = f.getLsbD 0 ∧
      bits2to0 (op ++ x ++ y ++ f ++ u ++ z) = z := by
  simp (disch := omega) only [opcodeField, bits11to9, bits8to6, immFlag, bits2to0, BitVec.getLsbD_append,
    BitVec.extractLsb'_append_eq_of_le, BitVec.extractLsb'_append_eq_of_add_le, BitVec.extractLsb'_eq_self,
    Nat.reduceSub, Nat.reduceLT, and_self, if_true, if_false]

theorem fields_offset11 (op : BitVec 4) (f : BitVec 1) (o : BitVec 11) :
    opcodeField (op ++ f ++ o) = op ∧ longForm (op ++ f ++ o) = f.getLsbD 0 ∧ offset11Field (op ++ f ++ o) = o := by
  simp (disch := omega) only [opcodeField, longForm, offset11Field, BitVec.getLsbD_append,
    BitVec.extractLsb'_append_eq_of_le, BitVec.extractLsb'_append_eq_of_add_le, BitVec.extractLsb'_eq_self,
    Nat.reduceSub, Nat.reduceLT, and_self, if_true, if_false]

theorem fields_longForm_baseR (op : BitVec 4) (f : BitVec 1) (u : BitVec 2) (y : BitVec 3) (z : BitVec 6) :
    opcodeField (op ++ f ++ u ++ y ++ z) = op ∧ longForm (op ++ f ++ u ++ y ++ z) = f.getLsbD 0 ∧
      bits8to6 (op ++ f ++ u ++ y ++ z) = y := by
  simp (disch := omega) only [opcodeField, longForm, bits8to6, BitVec.getLsbD_append,
    BitVec.extractLsb'_append_eq_of_le, BitVec.extractLsb'_append_eq_of_add_le, BitVec.extractLsb'_eq_self,
    Nat.reduceSub, Nat.reduceLT, and_self, if_true, if_false]

theorem fields_none (op : BitVec 4) (z : BitVec 12) : opcodeField (op ++ z) = op := by
  simp (disch := omega) only [opcodeField, BitVec.extractLsb'_append_eq_of_le, BitVec.extractLsb'_eq_self,
    Nat.reduceSub]

theorem fields_trapvect8 (op u : BitVec 4) (v : BitVec 8) :
    opcodeField (op ++ u ++ v) = op ∧ trapvect8Field (op ++ u ++ v) = v := by
  simp (disch := omega) only [opcodeField, trapvect8Field, BitVec.extractLsb'_append_eq_of_le,
    BitVec.extractLsb'_append_eq_of_add_le, BitVec.extractLsb'_eq_self, Nat.reduceSub, and_self]

@[simp] theorem Reg.ofBits_bits (r : Reg) : Reg.ofBits r.bits = r := by cases r <;> rfl

/-! ### The row of a TRAP word (43_trap.md R98) -/

theorem decodeTrap_of_not_serviceVector {v : BitVec 8} (h : serviceVector v = false) : decodeTrap v = .trap v := by
  unfold decodeTrap
  split
  case h_7 => rfl
  all_goals exact absurd h (by decide)

/-- A vector with a service routine has a row of its own, which fixes the vector. -/
theorem decodeTrap_serviceVector {v : BitVec 8} (h : serviceVector v = true) :
    (decodeTrap v).wf = true ∧ rowMaskMatch (decodeTrap v) = (0xF0FF, 0xF#4 ++ 0#4 ++ v) := by
  obtain ⟨hlo, hhi⟩ : 0x20 ≤ v.toNat ∧ v.toNat ≤ 0x25 := by simpa [serviceVector] using h
  have hv : v = 0x20#8 ∨ v = 0x21#8 ∨ v = 0x22#8 ∨ v = 0x23#8 ∨ v = 0x24#8 ∨ v = 0x25#8 := by bv_omega
  obtain rfl | rfl | rfl | rfl | rfl | rfl := hv <;> exact ⟨rfl, rfl⟩

/-! ### What each format decodes to, at every value of its don't-care bits (30_encoding.md R65, R69) -/

theorem decode_br (nzp : BitVec 3) (o : BitVec 9) : decode (0x0#4 ++ nzp ++ o) = .br nzp o := by
  simp [decode, fields_offset9]

theorem decode_addReg (d a b : Reg) (u : BitVec 2) :
    decode (0x1#4 ++ d.bits ++ a.bits ++ 0#1 ++ u ++ b.bits) = .addReg d a b := by
  simp [decode, fields_sr2]

theorem decode_addImm (d a : Reg) (i : BitVec 5) :
    decode (0x1#4 ++ d.bits ++ a.bits ++ 1#1 ++ i) = .addImm d a i := by
  simp [decode, fields_imm5]

theorem decode_ld (d : Reg) (o : BitVec 9) : decode (0x2#4 ++ d.bits ++ o) = .ld d o := by
  simp [decode, fields_offset9]

theorem decode_st (r : Reg) (o : BitVec 9) : decode (0x3#4 ++ r.bits ++ o) = .st r o := by
  simp [decode, fields_offset9]

theorem decode_jsr (o : BitVec 11) : decode (0x4#4 ++ 1#1 ++ o) = .jsr o := by
  simp only [decode, fields_offset11]
  rfl

theorem decode_jsrr (b : Reg) (u : BitVec 2) (z : BitVec 6) :
    decode (0x4#4 ++ 0#1 ++ u ++ b.bits ++ z) = .jsrr b := by
  simp only [decode, fields_longForm_baseR, Reg.ofBits_bits]
  rfl

theorem decode_andReg (d a b : Reg) (u : BitVec 2) :
    decode (0x5#4 ++ d.bits ++ a.bits ++ 0#1 ++ u ++ b.bits) = .andReg d a b := by
  simp [decode, fields_sr2]

theorem decode_andImm (d a : Reg) (i : BitVec 5) :
    decode (0x5#4 ++ d.bits ++ a.bits ++ 1#1 ++ i) = .andImm d a i := by
  simp [decode, fields_imm5]

theorem decode_ldr (d b : Reg) (o : BitVec 6) : decode (0x6#4 ++ d.bits ++ b.bits ++ o) = .ldr d b o := by
  simp [decode, fields_offset6]

theorem decode_str (r b : Reg) (o : BitVec 6) : decode (0x7#4 ++ r.bits ++ b.bits ++ o) = .str r b o := by
  simp [decode, fields_offset6]

theorem decode_rti (z : BitVec 12) : decode (0x8#4 ++ z) = .rti := by
  simp [decode, fields_none]

theorem decode_notReg (d a : Reg) (z : BitVec 6) : decode (0x9#4 ++ d.bits ++ a.bits ++ z) = .notReg d a := by
  simp [decode, fields_offset6]

theorem decode_ldi (d : Reg) (o : BitVec 9) : decode (0xA#4 ++ d.bits ++ o) = .ldi d o := by
  simp [decode, fields_offset9]

theorem decode_sti (r : Reg) (o : BitVec 9) : decode (0xB#4 ++ r.bits ++ o) = .sti r o := by
  simp [decode, fields_offset9]

theorem decode_jmp (u : BitVec 3) (b : Reg) (z : BitVec 6) : decode (0xC#4 ++ u ++ b.bits ++ z) = .jmp b := by
  simp [decode, fields_offset6]

theorem decode_res (z : BitVec 12) : decode (0xD#4 ++ z) = .res := by
  simp [decode, fields_none]

theorem decode_lea (d : Reg) (o : BitVec 9) : decode (0xE#4 ++ d.bits ++ o) = .lea d o := by
  simp [decode, fields_offset9]

/-- For a vector with a service routine, `decodeTrap v` is the routine's row by `rfl`. -/
theorem decode_trapWord (u : BitVec 4) (v : BitVec 8) : decode (0xF#4 ++ u ++ v) = decodeTrap v := by
  simp [decode, fields_trapvect8]

theorem decode_trap {v : BitVec 8} (u : BitVec 4) (h : serviceVector v = false) :
    decode (0xF#4 ++ u ++ v) = .trap v := by
  rw [decode_trapWord, decodeTrap_of_not_serviceVector h]

/-! ### Decode and encode (30_encoding.md R63-R73) -/

/-- Settles O5: the encoder writes each instruction in its own format, with every don't-care bit 0. -/
theorem decodeOfEncodeIsTheInstruction : Obligations.DecodeOfEncodeIsTheInstruction := by
  intro i hwf
  cases i with
  | br nzp o => exact decode_br nzp o
  | addReg d a b => exact decode_addReg d a b 0
  | addImm d a i => exact decode_addImm d a i
  | ld d o => exact decode_ld d o
  | st r o => exact decode_st r o
  | jsr o => exact decode_jsr o
  | jsrr b => exact decode_jsrr b 0 0
  | andReg d a b => exact decode_andReg d a b 0
  | andImm d a i => exact decode_andImm d a i
  | ldr d b o => exact decode_ldr d b o
  | str r b o => exact decode_str r b o
  | rti => exact decode_rti 0
  | notReg d a => exact decode_notReg d a 0
  | ldi d o => exact decode_ldi d o
  | sti r o => exact decode_sti r o
  | jmp b => exact decode_jmp 0 b 0
  | res => exact decode_res 0
  | lea d o => exact decode_lea d o
  | trapGetc | trapOut | trapPuts | trapIn | trapPutsp | trapHalt => exact decode_trapWord 0 _
  | trap v => exact decode_trap 0 (by simpa [Instr.wf] using hwf)

/-- Settles O4: one decoding lemma per format. -/
theorem decodeReadsEveryFormat : Obligations.DecodeReadsEveryFormat := by
  intro d a b nzp x3 x2 x4 i5 o6 x6 v o9 o11 x12
  exact ⟨decode_br nzp o9, decode_addReg d a b x2, decode_addImm d a i5, decode_ld d o9, decode_st d o9,
    decode_jsr o11, decode_jsrr b x2 x6, decode_andReg d a b x2, decode_andImm d a i5, decode_ldr d b o6,
    decode_str d b o6, decode_rti x12, decode_notReg d a x6, decode_ldi d o9, decode_sti d o9, decode_jmp x3 b x6,
    decode_res x12, decode_lea d o9, decode_trapWord x4 _, decode_trapWord x4 _, decode_trapWord x4 _,
    decode_trapWord x4 _, decode_trapWord x4 _, decode_trapWord x4 _, decode_trap x4⟩

/-! ### A word under the masks of the opcode table (opcode_table.json) -/

theorem and_opcodeMask (w : Word) : w &&& 0xF000 = opcodeField w ++ 0#12 := by
  refine and_eq_of_bits fun k => ?_
  simp only [opcodeField, BitVec.getLsbD_append]
  fin_cases k <;> simp

theorem and_immFlagMask (w : Word) : w &&& 0xF020 = opcodeField w ++ 0#6 ++ BitVec.ofBool (immFlag w) ++ 0#5 := by
  refine and_eq_of_bits fun k => ?_
  simp only [opcodeField, immFlag, BitVec.getLsbD_append]
  fin_cases k <;> simp

theorem and_longFormMask (w : Word) : w &&& 0xF800 = opcodeField w ++ BitVec.ofBool (longForm w) ++ 0#11 := by
  refine and_eq_of_bits fun k => ?_
  simp only [opcodeField, longForm, BitVec.getLsbD_append]
  fin_cases k <;> simp

theorem and_vectorMask (w : Word) : w &&& 0xF0FF = opcodeField w ++ 0#4 ++ trapvect8Field w := by
  refine and_eq_of_bits fun k => ?_
  simp only [opcodeField, trapvect8Field, BitVec.getLsbD_append]
  fin_cases k <;> simp

/-- `i` is well-formed and `w` carries the fixed bits of its row: what O6 asks of `decode w`. -/
def MatchesRow (w : Word) (i : Instr) : Prop := i.wf = true ∧ w &&& (rowMaskMatch i).1 = (rowMaskMatch i).2

theorem matchesRow_of_mask {w m v : Word} {i : Instr} (h : w &&& m = v) (hwf : i.wf = true)
    (hrow : rowMaskMatch i = (m, v)) : MatchesRow w i :=
  ⟨hwf, by rw [hrow]; exact h⟩

theorem matchesRow_of_opcode {w : Word} {op : BitVec 4} {i : Instr} (h : opcodeField w = op) (hwf : i.wf = true)
    (hrow : rowMaskMatch i = (0xF000, op ++ 0#12)) : MatchesRow w i :=
  matchesRow_of_mask (h ▸ and_opcodeMask w) hwf hrow

theorem matchesRow_of_immFlag {w : Word} {op : BitVec 4} {f : Bool} {i : Instr} (h : opcodeField w = op)
    (hf : immFlag w = f) (hwf : i.wf = true)
    (hrow : rowMaskMatch i = (0xF020, op ++ 0#6 ++ BitVec.ofBool f ++ 0#5)) : MatchesRow w i :=
  matchesRow_of_mask (h ▸ hf ▸ and_immFlagMask w) hwf hrow

theorem matchesRow_of_longForm {w : Word} {op : BitVec 4} {f : Bool} {i : Instr} (h : opcodeField w = op)
    (hf : longForm w = f) (hwf : i.wf = true)
    (hrow : rowMaskMatch i = (0xF800, op ++ BitVec.ofBool f ++ 0#11)) : MatchesRow w i :=
  matchesRow_of_mask (h ▸ hf ▸ and_longFormMask w) hwf hrow

theorem matchesRow_decodeTrap {w : Word} (h : opcodeField w = 0xF#4) :
    MatchesRow w (decodeTrap (trapvect8Field w)) := by
  cases hv : serviceVector (trapvect8Field w) with
  | true =>
    obtain ⟨hwf, hrow⟩ := decodeTrap_serviceVector hv
    exact matchesRow_of_mask (h ▸ and_vectorMask w) hwf hrow
  | false =>
    rw [decodeTrap_of_not_serviceVector hv]
    exact matchesRow_of_opcode h (by simp [Instr.wf, hv]) rfl

/-- Settles O6: along the decoder's own branches, on the opcode and for four opcodes on a form bit or the vector. -/
theorem everyWordMatchesTheRowItDecodesTo : Obligations.EveryWordMatchesTheRowItDecodesTo := by
  intro w
  change MatchesRow w (decode w)
  unfold decode
  split
  case h_2 h | h_6 h =>
    split
    case isTrue hf => exact matchesRow_of_immFlag h hf rfl rfl
    case isFalse hf => exact matchesRow_of_immFlag h (Bool.eq_false_iff.mpr hf) rfl rfl
  case h_5 h =>
    split
    case isTrue hf => exact matchesRow_of_longForm h hf rfl rfl
    case isFalse hf => exact matchesRow_of_longForm h (Bool.eq_false_iff.mpr hf) rfl rfl
  case h_16 =>
    have hop : opcodeField w = 0xF#4 := by
      generalize opcodeField w = op at *
      revert op
      decide
    exact matchesRow_decodeTrap hop
  all_goals exact matchesRow_of_opcode ‹_› rfl rfl

/-- Settles O3: twelve fixed words, each decoded by evaluation. -/
theorem writtenOutWordsDecode : Obligations.WrittenOutWordsDecode := by
  unfold Obligations.WrittenOutWordsDecode
  decide

end Sys2Proof

namespace Sys2Proof.Machine

open Sys2Proof.Claims

/-! ### Branches, jumps and calls (40_control.md) -/

/-- A write of the pc alone. -/
theorem setPc_frame (v : Word) (s : State) :
    SameRegs s (s.setPc v) ∧ (s.setPc v).cond = s.cond ∧ SameMem s (s.setPc v) ∧ SameInput s (s.setPc v) ∧
      SameRun s (s.setPc v) :=
  ⟨fun _ => rfl, rfl, fun _ => rfl, ⟨rfl, rfl, rfl⟩, ⟨rfl, rfl, rfl, rfl, rfl, rfl⟩⟩

/-- The state that a call of `v` leaves: R7 holds the incremented pc (40_control.md R83). -/
def callTo (v : Word) (s : State) : State := (s.setReg .r7 s.pc).setPc v

theorem callTo_frame (v : Word) (s : State) :
    (callTo v s).reg .r7 = s.pc ∧ SameRegsBut .r7 s (callTo v s) ∧ (callTo v s).cond = s.cond ∧
      SameMem s (callTo v s) ∧ SameInput s (callTo v s) ∧ SameRun s (callTo v s) := by
  have hother : SameRegsBut .r7 s (callTo v s) := fun q hq => by simp [callTo, hq]
  exact ⟨by simp [callTo], hother, rfl, fun _ => rfl, ⟨rfl, rfl, rfl⟩, ⟨rfl, rfl, rfl, rfl, rfl, rfl⟩⟩

theorem exec_jmp (b : Reg) (s : State) : exec (.jmp b) s = .next (s.setPc (s.reg b)) := rfl

theorem exec_jsr (off : BitVec 11) (s : State) :
    exec (.jsr off) s = .next (callTo (s.pc + off.signExtend 16) s) := by
  simp only [exec, execJsr, pcRel11, sext_eq_signExtend, callTo]

/-- The base register is read after the link: JSRR R7 goes on at the incremented pc (log 21). -/
theorem exec_jsrr (b : Reg) (s : State) :
    exec (.jsrr b) s = .next (callTo (if b = .r7 then s.pc else s.reg b) s) := by
  simp only [exec, execJsrr, setReg_reg, callTo]

/-- Settles O12: JMP writes the pc alone, and both calls are `callTo` their target. -/
theorem jumpsAndCallsReachTheirTargets : Obligations.JumpsAndCallsReachTheirTargets :=
  ⟨fun s b => ⟨_, exec_jmp b s, rfl, setPc_frame _ s⟩,
    fun s off => ⟨_, exec_jsr off s, rfl, callTo_frame _ s⟩,
    fun s b => ⟨_, exec_jsrr b s, fun hb => if_neg hb, fun hb => if_pos hb, callTo_frame _ s⟩⟩

theorem execBr_taken {nzp : BitVec 3} {s : State} (off : BitVec 9) (h : nzp &&& s.cond ≠ 0) :
    execBr nzp off s = .next (s.setPc (s.pc + off.signExtend 16)) := by
  have htaken : branchTaken nzp s.cond = true := bne_iff_ne.mpr h
  simp [execBr, htaken, pcRel9]

/-- Settles O10: a BR not taken leaves the state as it is, which is to write the pc back. -/
theorem branchMovesOnlyThePc : Obligations.BranchMovesOnlyThePc := by
  intro s nzp off
  by_cases h : nzp &&& s.cond = 0
  · exact ⟨s, execBr_not_taken off h, fun hne => absurd h hne, fun _ => rfl, setPc_frame s.pc s⟩
  · exact ⟨_, execBr_taken off h, fun _ => rfl, fun h0 => absurd h0 h, setPc_frame _ s⟩

/-- Each flag is one bit of COND, and against it the mask shows its own bit at that place. -/
theorem branchTaken_twoPow (nzp : BitVec 3) {i : Nat} (hi : i < 3) :
    branchTaken nzp (BitVec.twoPow 3 i) = nzp.getLsbD i := by
  have hne : BitVec.twoPow 3 i ≠ 0#3 := fun h => by simpa [hi] using congrArg (BitVec.getLsbD · i) h
  cases h : nzp.getLsbD i <;> simp [branchTaken, BitVec.and_twoPow, h, hne]

theorem branchTaken_condN (nzp : BitVec 3) : branchTaken nzp condN = nzp.getLsbD 2 :=
  branchTaken_twoPow nzp (i := 2) (by decide)

theorem branchTaken_condZ (nzp : BitVec 3) : branchTaken nzp condZ = nzp.getLsbD 1 :=
  branchTaken_twoPow nzp (i := 1) (by decide)

theorem branchTaken_condP (nzp : BitVec 3) : branchTaken nzp condP = nzp.getLsbD 0 :=
  branchTaken_twoPow nzp (i := 0) (by decide)

/-- Settles O11: one case for each flag that COND can hold; the three flags differ. -/
theorem branchMaskBitsFollowTheFlags : Obligations.BranchMaskBitsFollowTheFlags := by
  have hNZ : condN ≠ condZ := by decide
  have hNP : condN ≠ condP := by decide
  have hZP : condZ ≠ condP := by decide
  rintro nzp cond (hN | hZ | hP)
  · obtain rfl : cond = condN := hN
    simp [branchTaken_condN, hNZ, hNP]
  · obtain rfl : cond = condZ := hZ
    simp [branchTaken_condZ, hNZ.symm, hZP]
  · obtain rfl : cond = condP := hP
    simp [branchTaken_condP, hNP.symm, hZP.symm]

end Sys2Proof.Machine

namespace Sys2Proof.Machine

open Sys2Proof.Claims

/-! ### ADD, AND and NOT (41_operate.md) -/

/-- The end of every instruction that defines a register: that register and COND are written, and nothing else. -/
theorem writeAndFlag_writesOnly (d : Reg) (v : Word) (s : State) : WritesOnly d v s (writeAndFlag d v s) := by
  have hresult : (writeAndFlag d v s).reg d = v := by simp
  have hother : SameRegsBut d s (writeAndFlag d v s) := fun q hq => by simp [hq]
  exact ⟨hresult, hother, flagMatches_flagOf v, rfl, fun _ => rfl, ⟨rfl, rfl, rfl⟩, ⟨rfl, rfl, rfl, rfl, rfl, rfl⟩⟩

theorem exec_addReg (d a b : Reg) (s : State) :
    exec (.addReg d a b) s = .next (writeAndFlag d (s.reg a + s.reg b) s) := rfl

theorem exec_addImm (d a : Reg) (imm : BitVec 5) (s : State) :
    exec (.addImm d a imm) s = .next (writeAndFlag d (s.reg a + imm.signExtend 16) s) := by
  simp only [exec, execAddImm, immOperand, sext_eq_signExtend]

theorem exec_andReg (d a b : Reg) (s : State) :
    exec (.andReg d a b) s = .next (writeAndFlag d (s.reg a &&& s.reg b) s) := rfl

theorem exec_andImm (d a : Reg) (imm : BitVec 5) (s : State) :
    exec (.andImm d a imm) s = .next (writeAndFlag d (s.reg a &&& imm.signExtend 16) s) := by
  simp only [exec, execAndImm, immOperand, sext_eq_signExtend]

theorem exec_notReg (d a : Reg) (s : State) :
    exec (.notReg d a) s = .next (writeAndFlag d (~~~ s.reg a) s) := rfl

/-- Adding a sign-extended field adds its signed value modulo 2^16 (41_operate.md R88). -/
theorem natCast_toNat_add_signExtend {n : Nat} (w : Word) (v : BitVec n) :
    ((w + v.signExtend 16).toNat : Int) = (w.toNat + v.toInt) % 65536 := by
  have hext : ((v.signExtend 16).toNat : Int) = v.toInt % 65536 := by
    rw [BitVec.signExtend, BitVec.toNat_ofInt]
    exact Int.toNat_of_nonneg (Int.emod_nonneg _ (by decide))
  rw [BitVec.toNat_add]
  omega

/-- Settles O7: both modes end in `writeAndFlag` of the sum. -/
theorem addWritesTheWrappedSum : Obligations.AddWritesTheWrappedSum :=
  ⟨fun s d a b => ⟨_, _, exec_addReg d a b s, BitVec.toNat_add _ _, writeAndFlag_writesOnly d _ s⟩,
    fun s d a imm => ⟨_, _, exec_addImm d a imm s, natCast_toNat_add_signExtend _ imm, writeAndFlag_writesOnly d _ s⟩⟩

/-- The bits of a sign-extended immediate from bit 5 up are its sign; past bit 15 the other operand has no bits. -/
theorem getLsbD_and_signExtend_imm (w : Word) (imm : BitVec 5) (k : Nat) :
    (w &&& imm.signExtend 16).getLsbD k =
      (w.getLsbD k && (if k < 5 then imm.getLsbD k else imm.getLsbD 4)) := by
  rw [BitVec.getLsbD_and, BitVec.getLsbD_signExtend]
  by_cases hk : k < 16
  · simp [hk, BitVec.msb_eq_getLsbD_last]
  · have hout : w.getLsbD k = false := w.getLsbD_of_ge k (by omega)
    simp [hout]

/-- Settles O8: both modes end in `writeAndFlag` of the bitwise and. -/
theorem andWritesTheBitwiseAnd : Obligations.AndWritesTheBitwiseAnd :=
  ⟨fun s d a b => ⟨_, _, exec_andReg d a b s, fun _ => BitVec.getLsbD_and, writeAndFlag_writesOnly d _ s⟩,
    fun s d a imm => ⟨_, _, exec_andImm d a imm s, getLsbD_and_signExtend_imm _ imm, writeAndFlag_writesOnly d _ s⟩⟩

/-- A word and its complement add up to 0xFFFF without a carry. -/
theorem toNat_not_add_toNat (w : Word) : (~~~ w).toNat + w.toNat = 65535 := by
  rw [BitVec.toNat_not]
  omega

/-- Settles O9: NOT ends in `writeAndFlag` of the complement. -/
theorem notWritesTheComplement : Obligations.NotWritesTheComplement :=
  fun s d a => ⟨_, _, exec_notReg d a s, toNat_not_add_toNat _, writeAndFlag_writesOnly d _ s⟩

end Sys2Proof.Machine

namespace Sys2Proof.Machine

open Sys2Proof.Claims

/-! ### Loads, stores and LEA (42_load_store.md) -/

theorem exec_ld (d : Reg) (off : BitVec 9) (s : State) :
    exec (.ld d off) s = .next (finishLoad d (memRead (s.pc + off.signExtend 16) s)) := by
  simp only [exec, execLd, pcRel9, sext_eq_signExtend]

theorem exec_ldi (d : Reg) (off : BitVec 9) (s : State) :
    exec (.ldi d off) s = .next (finishLoad d
      (memRead (memRead (s.pc + off.signExtend 16) s).1 (memRead (s.pc + off.signExtend 16) s).2)) := by
  simp only [exec, execLdi, indirect9, pcRel9, sext_eq_signExtend]

theorem exec_lea (d : Reg) (off : BitVec 9) (s : State) :
    exec (.lea d off) s = .next (writeAndFlag d (s.pc + off.signExtend 16) s) := by
  simp only [exec, execLea, pcRel9, sext_eq_signExtend]

theorem exec_st (r : Reg) (off : BitVec 9) (s : State) :
    exec (.st r off) s = .next (memWrite (s.pc + off.signExtend 16) (s.reg r) s) := by
  simp only [exec, execSt, pcRel9, sext_eq_signExtend]

/-- The pointer read leaves the source register, so what is stored is its value before the instruction. -/
theorem exec_sti (r : Reg) (off : BitVec 9) (s : State) :
    exec (.sti r off) s = .next (memWrite (memRead (s.pc + off.signExtend 16) s).1 (s.reg r)
      (memRead (s.pc + off.signExtend 16) s).2) := by
  simp only [exec, execSti, indirect9, pcRel9, sext_eq_signExtend, (memRead_frame _ s).reg]

/-- An arbitered read leaves the run state, the output and the fields of the host. -/
theorem memRead_sameRun (a : Word) (s : State) : SameRun s (memRead a s).2 :=
  (memRead_frame a s).sameRun (memRead_out a s)

/-- The end of every load: the frame is that of the arbitered read, and then of the register write. -/
theorem finishLoad_loadsFrom (d : Reg) (a : Word) (s : State) : LoadsFrom d a s (finishLoad d (memRead a s)) := by
  have hframe := memRead_frame a s
  obtain ⟨hresult, hother, hflag, -, hmem, hinput, -⟩ := writeAndFlag_writesOnly d (memRead a s).1 (memRead a s).2
  exact ⟨hresult, fun q hq => (hother q hq).trans (hframe.reg q), hflag, hframe.pc, hmem, hinput, memRead_sameRun a s⟩

/-- Settles O17: each load ends in `finishLoad` of the arbitered read, LDI in the state after its pointer read. -/
theorem loadsDeliverTheArbiteredWord : Obligations.LoadsDeliverTheArbiteredWord := by
  refine ⟨fun s d off => ⟨_, exec_ld d off s, finishLoad_loadsFrom d _ s⟩,
    fun s d b off => ⟨_, exec_ldr d b off s, finishLoad_loadsFrom d _ s⟩, fun s d off => ?_⟩
  have hpointer := memRead_frame (s.pc + off.signExtend 16) s
  have hboth := hpointer.trans (memRead_frame (memRead (s.pc + off.signExtend 16) s).1 _)
  exact ⟨_, _, _, exec_ldi d off s, rfl, finishLoad_loadsFrom d _ _, hpointer.reg, hboth.pc,
    hboth.sameRun ((memRead_out _ _).trans (memRead_out _ s))⟩

/-- Settles O18: LEA is `writeAndFlag` of the address, with no read. -/
theorem leaWritesTheAddress : Obligations.LeaWritesTheAddress :=
  fun s d off => ⟨_, exec_lea d off s, writeAndFlag_writesOnly d _ s⟩

/-- A store to canonical memory replaces its word and nothing else. -/
theorem memWrite_storesOnly {s : State} (hm : s.mem.wf = true) (a v : Word) : StoresOnly a v s (memWrite a v s) :=
  ⟨rawRead_memWrite hm a v, fun _ => rfl, rfl, rfl, ⟨rfl, rfl, rfl⟩, ⟨rfl, rfl, rfl, rfl, rfl, rfl⟩⟩

/-- Settles O19: each store is one `memWrite`, that of STI in the state after its pointer read, which is canonical too. -/
theorem storesReplaceOnlyTheirWord : Obligations.StoresReplaceOnlyTheirWord := by
  refine fun s hm => ⟨fun r off => ⟨_, exec_st r off s, memWrite_storesOnly hm _ _⟩,
    fun r b off => ⟨_, exec_str r b off s, memWrite_storesOnly hm _ _⟩, fun r off => ?_⟩
  have hpointer := memRead_frame (s.pc + off.signExtend 16) s
  exact ⟨_, _, _, exec_sti r off s, rfl, memWrite_storesOnly (hpointer.mem_wf hm) _ _, hpointer.reg, hpointer.cond,
    hpointer.pc, memRead_sameRun _ s⟩

/-! ### Where memory changes (42_load_store.md R93-R95, 20_memory.md R43, R59) -/

/-- Away from the device registers only the instruction's own store changes a word. -/
theorem exec_rawRead_of_ne_device {i : Instr} {s t : State} {a : Word} (h : exec i s = .next t)
    (hstore : storeTarget i s ≠ some a) (hkbsr : a ≠ Config.kbsrAddr) (hkbdr : a ≠ Config.kbdrAddr) :
    rawRead a t = rawRead a s := by
  cases exec_effect h with
  | writesFlagged d v u _ _ hu => exact hu.rawRead a hkbsr hkbdr
  | stores b v u hb hu =>
    have hne : a ≠ b := fun hab => hstore (hab ▸ hb)
    rw [rawRead_memWrite_ne u v hne, hu.rawRead a hkbsr hkbdr]
  | fallsThrough => rfl
  | jumps => rfl
  | calls => rfl
  | illegal => rfl
  | traps u t _ hu _ hend => cases hend <;> exact hu.rawRead a hkbsr hkbdr

/-- Under STRING_READ = raw a string walk leaves memory as it is. -/
theorem stringWalk_mem_of_raw {emit : Word → List Byte} {fuel : Nat} {a : Word} {s t : State}
    (hraw : s.cfg.stringRead = .raw) (h : stringWalk emit fuel a s = some t) : t.mem = s.mem := by
  induction fuel generalizing a s with
  | zero => simp [stringWalk] at h
  | succ n ih =>
    rw [stringWalk, stringRead_plain (.inl hraw)] at h
    split at h
    · cases h
      rfl
    · exact ih (s := outBytes _ s) hraw h

theorem putString_rawRead_of_raw {emit : Word → List Byte} {s t : State} (hraw : s.cfg.stringRead = .raw)
    (h : putString emit s = .next t) (a : Word) : rawRead a t = rawRead a s := by
  obtain ⟨u, hwalk, hput⟩ | ⟨-, hput⟩ := putString_cases emit s <;> rw [hput] at h <;> cases h
  have hmem : u.mem = s.mem := stringWalk_mem_of_raw hraw hwalk
  exact congrArg (Memory.read · a.toNat) hmem

theorem stringRead_eq_raw {s : State} (h : s.cfg.stringRead ≠ .arbitered) : s.cfg.stringRead = .raw := by
  cases hc : s.cfg.stringRead with
  | raw => rfl
  | arbitered => exact absurd hc h

/-- An instruction that makes no arbitered read changes no word but the one it stores, the device registers included. -/
theorem exec_rawRead_of_not_readsArbitered {i : Instr} {s t : State} {a : Word} (hwf : i.wf = true)
    (h : exec i s = .next t) (hstore : storeTarget i s ≠ some a) (hread : readsArbitered i s = false) :
    rawRead a t = rawRead a s := by
  cases i with
  | st r off =>
    cases (exec_st r off s).symm.trans h
    exact rawRead_memWrite_ne s _ fun ha => hstore (congrArg some ha.symm)
  | str r b off =>
    cases (exec_str r b off s).symm.trans h
    exact rawRead_memWrite_ne s _ fun ha => hstore (congrArg some ha.symm)
  | ld | ldi | ldr | sti => cases hread
  | trapPuts | trapPutsp =>
    have hraw := stringRead_eq_raw (of_decide_eq_false hread)
    exact putString_rawRead_of_raw (s := trapEntry s) hraw h a
  | trap v =>
    have hv : serviceVector v = false := by simpa [Instr.wf] using hwf
    cases (execTrap_bad hv s).symm.trans h
    rfl
  | br nzp off =>
    cases h
    split <;> rfl
  | _ => cases h; rfl

/-- Settles O46: either the instruction makes no arbitered read, or the word is no device register. -/
theorem memoryChangesOnlyWhereStoredOrPolled : Obligations.MemoryChangesOnlyWhereStoredOrPolled := by
  rintro i s t a hwf h hstore (hread | ⟨hkbsr, hkbdr⟩)
  · exact exec_rawRead_of_not_readsArbitered hwf h hstore hread
  · exact exec_rawRead_of_ne_device h hstore hkbsr hkbdr

end Sys2Proof.Machine

namespace Sys2Proof.Machine

open Sys2Proof.Claims

/-! ### What a TRAP that went on leaves alone (43_trap.md R97) -/

/-- After trap entry the run state, the cause and the output are free: the frame of a TRAP speaks of none of them. -/
theorem trapFrame_of_trapEntry (s : State) (r : RunState) (c : Option AbortCause) (o : List OutEvent) :
    TrapFrame s { trapEntry s with runState := r, abortCause := c, out := o } := by
  have hlink : (trapEntry s).reg .r7 = s.pc := by simp
  have hother : SameRegsBut .r7 s (trapEntry s) := fun q hq => by simp [hq]
  exact ⟨hlink, hother, rfl, rfl, fun _ => rfl, ⟨rfl, rfl, rfl⟩, rfl, rfl, rfl⟩

/-! ### PUTS and PUTSP (43_trap.md R102, R104) -/

@[simp] theorem outBytes_nil (s : State) : outBytes [] s = s := by simp [outBytes]

@[simp] theorem outBytes_outBytes (bs bs' : List Byte) (s : State) :
    outBytes bs' (outBytes bs s) = outBytes (bs ++ bs') s := by
  simp [outBytes]

/-- The `j`-th word from address `a` on; the address wraps. -/
def wordFrom (a : Word) (s : State) (j : Nat) : Word := rawRead (a + BitVec.ofNat 16 j) s

theorem stringWord_eq_wordFrom (s : State) (j : Nat) : stringWord s j = wordFrom (s.reg .r0) s j := rfl

theorem add_ofNat_succ (a : Word) (j : Nat) : a + BitVec.ofNat 16 (j + 1) = a + 1 + BitVec.ofNat 16 j := by
  rw [Nat.add_comm, BitVec.ofNat_add, ← BitVec.add_assoc]
  rfl

@[simp] theorem wordFrom_zero (a : Word) (s : State) : wordFrom a s 0 = rawRead a s := by simp [wordFrom]

theorem wordFrom_succ (a : Word) (s : State) (j : Nat) : wordFrom a s (j + 1) = wordFrom (a + 1) s j := by
  rw [wordFrom, add_ofNat_succ, wordFrom]

@[simp] theorem wordFrom_outBytes (bs : List Byte) (a : Word) (s : State) (j : Nat) :
    wordFrom a (outBytes bs s) j = wordFrom a s j := rfl

@[simp] theorem wordFrom_trapEntry (a : Word) (s : State) (j : Nat) : wordFrom a (trapEntry s) j = wordFrom a s j := rfl

/-- No string read of the words 0 to `k` from address `a` on polls (20_memory.md R47). -/
def ReadsPlainly (a : Word) (k : Nat) (s : State) : Prop :=
  s.cfg.stringRead = .raw ∨ ∀ j, j ≤ k → a + BitVec.ofNat 16 j ≠ Config.kbsrAddr

theorem ReadsPlainly.stringRead_eq {a : Word} {k : Nat} {s : State} (h : ReadsPlainly a k s) :
    stringRead a s = (rawRead a s, s) :=
  stringRead_plain (h.imp_right fun hne => by simpa using hne 0 (Nat.zero_le k))

theorem ReadsPlainly.tail {a : Word} {k : Nat} {s : State} (h : ReadsPlainly a (k + 1) s) :
    ReadsPlainly (a + 1) k s :=
  h.imp_right fun hne j hj => add_ofNat_succ a j ▸ hne (j + 1) (Nat.succ_le_succ hj)

/-- A walk over `k` nonzero words up to a zero word, read without a poll, puts out what `emit` gives for each of them
and does nothing else. -/
theorem stringWalk_plain (emit : Word → List Byte) {fuel k : Nat} {a : Word} {s : State} (hfuel : k < fuel)
    (hplain : ReadsPlainly a k s) (hgo : ∀ j, j < k → wordFrom a s j ≠ 0) (hstop : wordFrom a s k = 0) :
    stringWalk emit fuel a s = some (outBytes ((List.range k).flatMap fun j => emit (wordFrom a s j)) s) := by
  have hread := hplain.stringRead_eq
  induction k generalizing fuel a s with
  | zero =>
    have hzero : (stringRead a s).1 = 0 := by simpa [hread] using hstop
    rw [stringWalk_stop hfuel hzero, hread]
    simp
  | succ k ih =>
    have hne : (stringRead a s).1 ≠ 0 := by simpa [hread] using hgo 0 (Nat.succ_pos k)
    have hgo' (j : Nat) (hj : j < k) : wordFrom (a + 1) s j ≠ 0 :=
      wordFrom_succ a s j ▸ hgo (j + 1) (Nat.succ_lt_succ hj)
    have htail : ReadsPlainly (a + 1) k (outBytes (emit (rawRead a s)) s) := hplain.tail
    rw [stringWalk_go (by omega) hne, hread,
      ih (by omega) htail hgo' (wordFrom_succ a s k ▸ hstop) htail.stringRead_eq]
    simp [List.range_succ_eq_map, List.flatMap_map, wordFrom_succ]

/-- PUTS and PUTSP on a string that ends: after trap entry, what `emit` gives for each word goes out, and a flush. -/
theorem putString_plain (emit : Word → List Byte) {s : State} {k : Nat} (h : PlainString s k) :
    ∃ t, putString emit (trapEntry s) = .next t ∧ TrapFrame s t ∧ t.runState = s.runState ∧
      t.abortCause = s.abortCause ∧
      t.out = s.out ++ (List.range k).flatMap (fun j => (emit (stringWord s j)).map .byte) ++ [.flush] := by
  obtain ⟨hk, hgo, hstop, hplain⟩ := h
  have hwalk : stringWalk emit Config.memWords ((trapEntry s).reg .r0) (trapEntry s) = some _ :=
    stringWalk_plain emit hk hplain hgo hstop
  refine ⟨outFlush (outBytes _ (trapEntry s)), by rw [putString, hwalk], trapFrame_of_trapEntry s _ _ _, rfl, rfl,
    ?_⟩
  simp [List.map_flatMap, stringWord_eq_wordFrom]

/-- Settles O23: PUTS emits the low byte of each word. -/
theorem putsOutputsTheLowBytesOfTheString : Obligations.PutsOutputsTheLowBytesOfTheString := by
  intro s k h
  have hbytes (w : Word) : (putsBytes w).map OutEvent.byte = [.byte (lo w)] := rfl
  have hputs := putString_plain putsBytes h
  simp only [hbytes, ← List.map_eq_flatMap] at hputs
  exact hputs

/-- Settles O24: PUTSP emits the low byte of each word, and its high byte unless that is zero. -/
theorem putspOutputsBothBytesOfTheString : Obligations.PutspOutputsBothBytesOfTheString := by
  intro s k h
  have hbytes (w : Word) : (putspBytes w).map OutEvent.byte =
      if hi w = 0 then [.byte (lo w)] else [.byte (lo w), .byte (hi w)] := apply_ite _ _ _ _
  have hputsp := putString_plain putspBytes h
  simp only [hbytes] at hputsp
  exact hputsp

/-- Under STRING_READ = raw a walk runs out of fuel exactly when none of the words it may read is zero. -/
theorem stringWalk_eq_none_iff {emit : Word → List Byte} {fuel : Nat} {a : Word} {s : State}
    (hraw : s.cfg.stringRead = .raw) :
    stringWalk emit fuel a s = none ↔ ∀ j, j < fuel → wordFrom a s j ≠ 0 := by
  induction fuel generalizing a s with
  | zero => simp [stringWalk]
  | succ n ih =>
    rw [stringWalk, stringRead_plain (.inl hraw), Nat.forall_lt_succ_left]
    by_cases hzero : rawRead a s = 0
    · rw [if_pos hzero]
      simp [hzero]
    · rw [if_neg hzero, ih (s := outBytes _ s) hraw]
      simp only [wordFrom_zero, wordFrom_succ, wordFrom_outBytes]
      exact (and_iff_right hzero).symm

/-- The 65536 words from any address on, wrapping, are all of memory. -/
theorem forall_wordFrom_ne_zero_iff (a : Word) (s : State) :
    (∀ j, j < Config.memWords → wordFrom a s j ≠ 0) ↔ ∀ b, rawRead b s ≠ 0 := by
  refine ⟨fun h b => ?_, fun h _ _ => h _⟩
  have hb : a + BitVec.ofNat 16 (b - a).toNat = b := by rw [BitVec.ofNat_toNat, BitVec.setWidth_eq, add_sub_cancel]
  exact hb ▸ h (b - a).toNat (b - a).isLt

/-- A string routine walks over all of memory before it hangs (log 14). -/
theorem putString_hangs_iff {emit : Word → List Byte} {s : State} (hraw : s.cfg.stringRead = .raw) :
    putString emit s = .fault .unterminatedString ↔ ∀ a, rawRead a s ≠ 0 := by
  rw [← forall_wordFrom_ne_zero_iff (s.reg .r0), ← stringWalk_eq_none_iff (emit := emit) hraw]
  obtain ⟨t, hwalk, hput⟩ | ⟨hwalk, hput⟩ := putString_cases emit s <;> simp [hwalk, hput]

theorem putString_completes_iff {emit : Word → List Byte} {s : State} (hraw : s.cfg.stringRead = .raw) :
    (∃ t, putString emit s = .next t) ↔ ∃ a, rawRead a s = 0 := by
  have hhang := putString_hangs_iff (emit := emit) hraw
  obtain ⟨t, h⟩ | h := putString_answers emit s
  · have hsome : ¬ ∀ a, rawRead a s ≠ 0 := fun hall => by cases h.symm.trans (hhang.2 hall)
    simpa [h] using hsome
  · simpa [h] using hhang

/-- Settles O25: both routines are `putString` after trap entry, which leaves memory and the parameters. -/
theorem stringRoutinesHangOnlyWithoutAZeroWord : Obligations.StringRoutinesHangOnlyWithoutAZeroWord := by
  intro s hraw
  have hentry : (trapEntry s).cfg.stringRead = .raw := hraw
  exact ⟨putString_completes_iff hentry, putString_completes_iff hentry, putString_hangs_iff hentry,
    putString_hangs_iff hentry⟩

/-! ### The output (10_state.md R30, 43_trap.md R106) -/

/-- A step appends to the output: by O48 it does the same after any history, and the appended calls are those. -/
theorem step_out {s t : State} (h : step s = .next t) : ∃ l, t.out = s.out ++ l := by
  have hboth := nothingReadsTheOutput s s.out
  rw [h] at hboth
  obtain ⟨l, hl, -⟩ := hboth
  exact ⟨l, hl⟩

/-- No instruction but a TRAP drives the output collaborator. -/
theorem exec_out_of_not_isTrap {i : Instr} {s t : State} (hi : isTrap i = false) (h : exec i s = .next t) :
    t.out = s.out := by
  cases exec_effect h with
  | writesFlagged d v u _ _ _ hout => exact hout
  | stores a v u _ _ hout => exact hout
  | fallsThrough => rfl
  | jumps => rfl
  | calls => rfl
  | illegal => rfl
  | traps u t htrap => simp [hi] at htrap

/-- Settles O47, by `step_out` and, for an instruction alone, its effect. -/
theorem onlyTrapsAppendToTheOutput : Obligations.OnlyTrapsAppendToTheOutput :=
  ⟨fun _ _ => step_out, fun _ _ _ => exec_out_of_not_isTrap⟩

/-! ### GETC, IN, OUT, HALT and the unknown vectors (43_trap.md R100, R101, R103, R105, R107) -/

/-- Settles O21: the issuing steps end in trap entry, the prompt of IN and the wait. -/
theorem inputTrapsEnterTheirWait : Obligations.InputTrapsEnterTheirWait :=
  ⟨fun s => ⟨_, rfl, trapFrame_of_trapEntry s _ _ _, rfl, rfl, rfl⟩,
    fun s => ⟨_, rfl, trapFrame_of_trapEntry s _ _ _, rfl, rfl, rfl⟩⟩

/-- Settles O22: R0 is no link register, so OUT reads it as it was before trap entry. -/
theorem outAndHaltDriveTheOutput : Obligations.OutAndHaltDriveTheOutput :=
  ⟨fun s => ⟨_, rfl, trapFrame_of_trapEntry s _ _ _, rfl, rfl, List.append_assoc _ _ _⟩,
    fun s => ⟨_, rfl, trapFrame_of_trapEntry s _ _ _, rfl, rfl, rfl⟩⟩

theorem serviceVector_eq_false {v : BitVec 8} (h : v.toNat < 0x20 ∨ 0x25 < v.toNat) : serviceVector v = false := by
  simp only [serviceVector, Bool.and_eq_false_iff, decide_eq_false_iff_not]
  omega

/-- Settles O27: such a vector aborts after trap entry. -/
theorem unknownTrapVectorAborts : Obligations.UnknownTrapVectorAborts :=
  fun s _ hv => ⟨_, execTrap_bad (serviceVector_eq_false hv) s, trapFrame_of_trapEntry s _ _ _, rfl, rfl, rfl⟩

/-! ### The completing steps of GETC and IN (43_trap.md R100, R103) -/

theorem inByte_byte {s : State} {b : Byte} {rest : List Byte} (hq : s.inQueue = b :: rest) :
    inByte s = (.byte b, { s with inQueue := rest }) := by
  simp [inByte, hq]

/-- A zero-extended byte is never negative. -/
theorem flagOf_zext8 (b : Byte) : flagOf (zext8 b) = if b = 0 then condZ else condP := by
  have hzero : zext8 b = 0 ↔ b = 0 := by
    unfold zext8
    bv_omega
  have hsign : (zext8 b).getLsbD 15 = false := by simp [zext8]
  rw [flagOf, hsign]
  simp only [hzero, Bool.false_eq_true, if_false]

theorem step_waitGetc_byte {s : State} {b : Byte} {rest : List Byte} (hw : s.runState = .waitGetc)
    (ha : s.hostAbort = none) (hq : s.inQueue = b :: rest) :
    step s = .next (finishGetc (zext8 b) { s with inQueue := rest }) := by
  simp [step_of_no_abort ha, blockStep, hw, completeGetc, inByte_byte hq]

theorem step_waitIn_byte {s : State} {b : Byte} {rest : List Byte} (hw : s.runState = .waitIn)
    (ha : s.hostAbort = none) (hq : s.inQueue = b :: rest) :
    step s = .next (finishIn b (zext8 b) { s with inQueue := rest }) := by
  simp [step_of_no_abort ha, blockStep, hw, completeIn, inByte_byte hq]

/-- Settles O28: the step is `finishGetc` of the zero-extended byte. -/
theorem getcCompletesWithTheNextByte : Obligations.GetcCompletesWithTheNextByte := by
  intro s b rest hw ha hq
  exact ⟨_, step_waitGetc_byte hw ha hq, by simp [finishGetc, zext8], flagOf_zext8 b, rfl, rfl,
    fun _ hr => finishGetc_reg hr _ _, rfl, fun _ => rfl, rfl, rfl, ha, rfl, rfl, rfl, rfl⟩

/-- Settles O29: the step is `finishIn` of the zero-extended byte. -/
theorem inCompletesWithTheNextByteAndItsEcho : Obligations.InCompletesWithTheNextByteAndItsEcho := by
  intro s b rest hw ha hq
  exact ⟨_, step_waitIn_byte hw ha hq, by simp [finishIn, zext8], flagOf_zext8 b, rfl, rfl,
    fun _ hr => finishIn_reg hr _ _ _, rfl, fun _ => rfl, List.append_assoc _ _ _, rfl, ha, rfl, rfl, rfl, rfl⟩

end Sys2Proof.Machine

namespace Sys2Proof.Machine

open Sys2Proof.Claims

/-! ### RTI and RES (44_unimplemented.md R108-R110) -/

theorem exec_rti (s : State) : exec .rti s = .next (raiseAbort (.illegalOpcode 0x8) s) := rfl

theorem exec_res (s : State) : exec .res s = .next (raiseAbort (.illegalOpcode 0xD) s) := rfl

/-- An abort writes the run state and the cause alone (R110), and leaves a state that has no step. -/
theorem raiseAbort_frame (c : AbortCause) (s : State) :
    SameRegs s (raiseAbort c s) ∧ (raiseAbort c s).pc = s.pc ∧ (raiseAbort c s).cond = s.cond ∧
      SameMem s (raiseAbort c s) ∧ (raiseAbort c s).out = s.out ∧ SameInput s (raiseAbort c s) ∧
      (raiseAbort c s).inEnded = s.inEnded ∧ (raiseAbort c s).hostAbort = s.hostAbort ∧
      (raiseAbort c s).cfg = s.cfg ∧ step (raiseAbort c s) = .fault .aborted :=
  ⟨fun _ => rfl, rfl, rfl, fun _ => rfl, rfl, ⟨rfl, rfl, rfl⟩, rfl, rfl, rfl,
    step_aborted (raiseAbort_runState c s)⟩

/-- Settles O31: each is `raiseAbort` of its own cause, and `raiseAbort_frame` says the rest. -/
theorem rtiAndResOnlyAbort : Obligations.RtiAndResOnlyAbort := by
  rintro s i (rfl | rfl)
  · exact ⟨_, exec_rti s, raiseAbort_runState _ s, fun _ => rfl, nofun, raiseAbort_frame _ s⟩
  · exact ⟨_, exec_res s, raiseAbort_runState _ s, nofun, fun _ => rfl, raiseAbort_frame _ s⟩

end Sys2Proof.Machine

namespace Sys2Proof.Machine

open Sys2Proof.Claims

/-! ### A fetch at KBSR (60_exceptions.md R115 item 1, 20_memory.md R57) -/

/-- At KBSR a running block executes the word that the poll leaves there. -/
theorem step_fetch_at_kbsr {s : State} {w : Word} (hs : Runs s) (hpc : s.pc = Config.kbsrAddr)
    (hw : rawRead Config.kbsrAddr (pollKbsr s) = w) : step s = exec (decode w) ((pollKbsr s).setPc 0xFE01) := by
  obtain ⟨hrun, ha⟩ := hs
  rw [step_of_no_abort ha, blockStep_running hrun, hpc, memRead_kbsr, hw]
  rfl

/-- The zero word is a BR that is never taken. -/
theorem exec_decode_zero (s : State) : exec (decode 0) s = .next s :=
  execBr_not_taken 0 (BitVec.zero_and)

/-- The default ready word has the opcode of RTI. -/
theorem exec_decode_ready (s : State) : exec (decode 0x8000) s = .next (raiseAbort (.illegalOpcode 0x8) s) :=
  (congrArg (exec · s) (decode_rti 0)).trans (exec_rti s)

/-- Settles O33: the poll decides the fetched word, 0 or the ready word, and the poll's frame does the rest. -/
theorem fetchAtKbsrExecutesTheStatusWord : Obligations.FetchAtKbsrExecutesTheStatusWord := by
  intro s hs hm hpc
  have hframe := pollKbsr_frame s
  have hrun : s.runState = .running := hs.1
  refine ⟨fun hq => ?_, fun b rest script hq hscript hready => ?_⟩
  · obtain ⟨hkbsr, -, -⟩ := pollKbsr_clears hm (pollAnswer_nil hq)
    have hstep := (step_fetch_at_kbsr hs hpc hkbsr).trans (exec_decode_zero _)
    exact ⟨_, hstep, rfl, hframe.runState.trans hrun, hkbsr, hframe.reg, hframe.cond⟩
  · obtain ⟨hkbsr, hkbdr, hrest⟩ := pollKbsr_takes_byte hm hq (pollAnswer_scripted hq hscript)
    rw [hready] at hkbsr
    have hstep := (step_fetch_at_kbsr hs hpc hkbsr).trans (exec_decode_ready _)
    exact ⟨_, hstep, rfl, rfl, rfl, hkbsr, hkbdr, hrest⟩

/-! ### The host abort (60_exceptions.md R118, R115 item 3) -/

/-- A requested abort lands when no step is left to come first, or when the block holds. -/
theorem abortOrCount_lands {hold : Bool} {n : Nat} (s : State) (h : n = 0 ∨ hold = true) :
    abortOrCount hold (hostRequestAbort n s) = .abort (externalAbort s) := by
  obtain rfl | rfl := h
  · rfl
  · cases n <;> rfl

theorem step_hostRequestAbort_lands {s : State} {n : Nat} (ht : ¬ Terminal s)
    (h : n = 0 ∨ s.runState ≠ .running ∧ holding s = true) :
    step (hostRequestAbort n s) = .next (externalAbort s) := by
  have hwait : n = 0 ∨ holding s = true := h.imp_right And.right
  have hb : hostBoundary (hostRequestAbort n s) = .abort (externalAbort s) := by
    cases hr : (hostRequestAbort n s).runState with
    | running =>
      have hn : n = 0 := h.resolve_right fun ⟨hne, _⟩ => hne hr
      rw [hostBoundary, hr]
      exact abortOrCount_lands s (.inl hn)
    | waitGetc | waitIn =>
      rw [hostBoundary, hr]
      exact abortOrCount_lands s hwait
    | halted => exact absurd (.inl hr) ht
    | aborted => exact absurd (.inr hr) ht
  rw [step, hb]

theorem holding_of_no_input {s : State} (hq : s.inQueue = []) (he : s.inEnded = false ∨ s.cfg.eofPolicy = .stuck) :
    holding s = true := by
  obtain he | hp := he
  · simp [holding, hq, he]
  · simp [holding, hq, hp]

/-- Settles O37: the abort lands at once in both cases, and it is `raiseAbort` once the request is used up. -/
theorem hostAbortEndsTheRun : Obligations.HostAbortEndsTheRun := by
  intro s n ht
  refine ⟨?_, fun hrun hq he => ?_⟩
  · obtain ⟨hregs, hpc, hcond, hmem, hout, hin, -, -, -, hstop⟩ :=
      raiseAbort_frame .externalAbort { s with hostAbort := none }
    exact ⟨_, step_hostRequestAbort_lands ht (.inl rfl), rfl, rfl, hregs, hpc, hcond, hmem, hout, hin, hstop⟩
  · exact ⟨_, step_hostRequestAbort_lands ht (.inr ⟨hrun, holding_of_no_input hq he⟩), rfl, rfl⟩

/-! ### How an instruction ends a run (60_exceptions.md R112, R113) -/

/-- The run state that an instruction leaves, executed in the run state `r`. -/
def runStateAfter (i : Instr) (r : RunState) : RunState :=
  match i with
  | .rti | .res | .trap _ => .aborted
  | .trapHalt => .halted
  | .trapGetc => .waitGetc
  | .trapIn => .waitIn
  | _ => r

theorem serviceVector_of_trap_wf {v : BitVec 8} (h : (Instr.trap v).wf = true) : serviceVector v = false := by
  simpa [Instr.wf] using h

theorem putString_runState (emit : Word → List Byte) {s t : State} (h : putString emit s = .next t) :
    t.runState = s.runState := by
  obtain ⟨u, hwalk, hput⟩ | ⟨-, hput⟩ := putString_cases emit s <;> rw [hput] at h <;> cases h
  obtain ⟨hframe, -⟩ := stringWalk_frame hwalk
  exact hframe.runState

/-- A well-formed generic TRAP aborts after trap entry. -/
theorem exec_trap_wf {v : BitVec 8} (h : (Instr.trap v).wf = true) (s : State) :
    exec (.trap v) s = .next (raiseAbort (.badTrapVector v) (trapEntry s)) :=
  execTrap_bad (serviceVector_of_trap_wf h) s

theorem exec_runState {i : Instr} {s t : State} (hwf : i.wf = true) (h : exec i s = .next t) :
    t.runState = runStateAfter i s.runState := by
  cases i with
  | br nzp off => cases h; split <;> rfl
  | ld d off => cases h; exact memRead_runState _ s
  | ldr d b off => cases h; exact memRead_runState _ s
  | ldi d off => cases h; exact (memRead_runState _ _).trans (memRead_runState _ s)
  | sti r off => cases h; exact memRead_runState _ s
  | trapPuts => exact putString_runState (s := trapEntry s) putsBytes h
  | trapPutsp => exact putString_runState (s := trapEntry s) putspBytes h
  | trap v => cases (exec_trap_wf hwf s).symm.trans h; rfl
  | _ => cases h; rfl

theorem runStateAfter_eq_aborted_iff (i : Instr) :
    runStateAfter i .running = .aborted ↔ i = .rti ∨ i = .res ∨ ∃ v, i = .trap v := by
  cases i <;> simp [runStateAfter]

theorem runStateAfter_eq_halted_iff (i : Instr) : runStateAfter i .running = .halted ↔ i = .trapHalt := by
  cases i <;> simp [runStateAfter]

/-- Only the string routines can hang. -/
theorem exec_completes {i : Instr} (s : State) (hwf : i.wf = true) (hstr : isString i = false) :
    ∃ t, exec i s = .next t := by
  cases i with
  | trapPuts => cases hstr
  | trapPutsp => cases hstr
  | trap v => exact ⟨_, exec_trap_wf hwf s⟩
  | _ => exact ⟨_, rfl⟩

/-- Everything an instruction that aborts a running block can have done. -/
theorem exec_aborts {i : Instr} {s t : State} (hwf : i.wf = true) (hrun : s.runState = .running)
    (h : exec i s = .next t) (ht : t.runState = .aborted) :
    (∃ op, (i = .rti ∧ op = 0x8 ∨ i = .res ∧ op = 0xD) ∧ t = raiseAbort (.illegalOpcode op) s) ∨
    (∃ v, i = .trap v ∧ serviceVector v = false ∧ t = raiseAbort (.badTrapVector v) (trapEntry s)) := by
  have hi : i = .rti ∨ i = .res ∨ ∃ v, i = .trap v := by
    rwa [← runStateAfter_eq_aborted_iff, ← hrun, ← exec_runState hwf h]
  obtain rfl | rfl | ⟨v, rfl⟩ := hi
  · cases (exec_rti s).symm.trans h
    exact .inl ⟨0x8, .inl ⟨rfl, rfl⟩, rfl⟩
  · cases (exec_res s).symm.trans h
    exact .inl ⟨0xD, .inr ⟨rfl, rfl⟩, rfl⟩
  · cases (exec_trap_wf hwf s).symm.trans h
    exact .inr ⟨v, rfl, serviceVector_of_trap_wf hwf, rfl⟩

/-- Settles O38: `runStateAfter` says which instructions end a run, and `exec_aborts` with which cause. -/
theorem eachInstructionEndsTheRunOnlyAsListed : Obligations.EachInstructionEndsTheRunOnlyAsListed := by
  refine ⟨fun i s => exec_completes s, fun i s t hwf hrun h => ?_⟩
  have ht : t.runState = runStateAfter i .running := hrun ▸ exec_runState hwf h
  refine ⟨ht ▸ runStateAfter_eq_aborted_iff i, ht ▸ runStateAfter_eq_halted_iff i, fun habort => ?_⟩
  obtain ⟨op, ⟨rfl, rfl⟩ | ⟨rfl, rfl⟩, rfl⟩ | ⟨v, rfl, -, rfl⟩ := exec_aborts hwf hrun h habort
  · exact ⟨fun _ => rfl, nofun, nofun⟩
  · exact ⟨nofun, fun _ => rfl, nofun⟩
  · exact ⟨nofun, nofun, fun _ hv => by cases hv; rfl⟩

@[simp] theorem fetch_out (s : State) : (fetch s).2.out = s.out := memRead_out s.pc s

/-- Settles O39: the abort is `raiseAbort` in the fetched state or after its trap entry, and neither a fetch nor trap
entry puts anything out. -/
theorem abortsLeaveThePcPastTheirInstruction : Obligations.AbortsLeaveThePcPastTheirInstruction := by
  intro s t ⟨hrun, ha⟩ hstep ht
  have hexec : exec (decode (fetch s).1) (fetch s).2 = .next t := by
    rw [← hstep, step_of_no_abort ha, blockStep_running hrun]
    rfl
  have hwf : (decode (fetch s).1).wf = true := (everyWordMatchesTheRowItDecodesTo (fetch s).1).1
  have hfrun : (fetch s).2.runState = .running := (fetch_frame s).runState.trans hrun
  have hpc : (fetch s).2.pc - 1 = s.pc := by rw [fetch_pc, BitVec.add_sub_cancel]
  obtain ⟨op, hop, rfl⟩ | ⟨v, -, hv, rfl⟩ := exec_aborts hwf hfrun hexec ht
  · have hop : op = 0x8 ∨ op = 0xD := hop.imp And.right And.right
    exact ⟨hpc, fetch_out s, .inl ⟨op, rfl, hop⟩⟩
  · exact ⟨hpc, fetch_out s, .inr ⟨v, rfl, hv, by simp⟩⟩

end Sys2Proof.Machine

namespace Sys2Proof.Machine

open Sys2Proof.Claims

/-! ### One image (70_reset_and_hazards.md R134; 92_eei_decisions.md D19-D21) -/

@[simp] theorem hi_append_lo (w : Word) : (hi w ++ lo w : Word) = w :=
  calc (hi w ++ lo w : Word) = w.extractLsb' 0 (8 + 8) := BitVec.extractLsb'_append_extractLsb'_eq_extractLsb' rfl
    _ = w := BitVec.extractLsb'_eq_self

/-- One round of the loader's loop, on a word as the image writes it. -/
theorem loadWords_wordBytes (a : Nat) (w : Word) (bs : List Byte) (m : Memory) :
    loadWords a (wordBytes w ++ bs) m = if a > 0xFFFF then m else loadWords (a + 1) bs (m.write a w) := by
  simp [wordBytes, loadWords]

theorem loadImage_imageBytes_append (o : Word) (ws : List Word) (bs : List Byte) (m : Memory) :
    loadImage (imageBytes o ws ++ bs) m = loadWords o.toNat (ws.flatMap wordBytes ++ bs) m := by
  simp [imageBytes, wordBytes, loadImage]

theorem loadImage_imageBytes (o : Word) (ws : List Word) (m : Memory) :
    loadImage (imageBytes o ws) m = loadWords o.toNat (ws.flatMap wordBytes) m := by
  simpa using loadImage_imageBytes_append o ws [] m

/-- Nothing is written past 0xFFFF (92_eei_decisions.md D19). -/
theorem loadWords_past {a : Nat} (h : 0xFFFF < a) (bs : List Byte) (m : Memory) : loadWords a bs m = m := by
  unfold loadWords
  split
  · rw [if_pos h]
  · rfl

/-- Less than one word writes nothing (92_eei_decisions.md D20). -/
theorem loadWords_short (a : Nat) {bs : List Byte} (h : bs.length < 2) (m : Memory) : loadWords a bs m = m :=
  match bs, h with
  | [], _ => rfl
  | [_], _ => rfl

/-- Less than an origin word writes nothing (92_eei_decisions.md D21). -/
theorem loadImage_short {bs : List Byte} (h : bs.length < 2) (m : Memory) : loadImage bs m = m :=
  match bs, h with
  | [], _ => rfl
  | [_], _ => rfl

/-- What follows some words of a body is written from the address after them, and only if that is one. -/
theorem loadWords_append (a : Nat) (ws : List Word) (bs : List Byte) (m : Memory) :
    loadWords a (ws.flatMap wordBytes ++ bs) m =
      loadWords (a + ws.length) bs (loadWords a (ws.flatMap wordBytes) m) := by
  induction ws generalizing a m with
  | nil => rfl
  | cons w ws ih =>
    rw [List.flatMap_cons, List.append_assoc, loadWords_wordBytes, loadWords_wordBytes]
    split
    · exact (loadWords_past (by rw [List.length_cons]; omega) bs m).symm
    · rw [ih, List.length_cons, Nat.add_assoc, Nat.add_comm 1]

theorem loadWords_read_outside {a b : Nat} {ws : List Word} (h : b < a ∨ a + ws.length ≤ b) (m : Memory) :
    (loadWords a (ws.flatMap wordBytes) m).read b = m.read b := by
  induction ws generalizing a m with
  | nil => rfl
  | cons w ws ih =>
    rw [List.length_cons] at h
    rw [List.flatMap_cons, loadWords_wordBytes]
    split
    · rfl
    · rw [ih (by omega), Memory.read_write_ne m w (by omega)]

/-- The k-th word of a body stands k past its first address: no later word of the body reaches it. -/
theorem loadWords_read_word {a k : Nat} {ws : List Word} {m : Memory} (hm : m.wf = true) (hk : k < ws.length)
    (ha : a + k < 65536) : (loadWords a (ws.flatMap wordBytes) m).read (a + k) = ws[k] := by
  induction ws generalizing a k m with
  | nil => cases hk
  | cons w ws ih =>
    rw [List.flatMap_cons, loadWords_wordBytes, if_neg (by omega)]
    cases k with
    | zero =>
      rw [loadWords_read_outside (by omega), Memory.read_write hm]
      exact if_pos rfl
    | succ k =>
      have hwf : (m.write a w).wf = true := Memory.write_wfFrom (Nat.zero_le _) (by simp [Config.memWords]; omega) hm
      have hstep := ih hwf (Nat.lt_of_succ_lt_succ hk) (a := a + 1) (by omega)
      rwa [Nat.add_assoc, Nat.add_comm 1] at hstep

/-- Settles O50: the loader's loop writes each word at its own address and reaches no other. -/
theorem loadedImagesReadBack : Obligations.LoadedImagesReadBack := by
  intro o ws m hm
  refine ⟨loadImage_wf _ hm, ?_⟩
  rw [loadImage_imageBytes]
  exact ⟨fun _ => loadWords_read_word hm, fun _ h => loadWords_read_outside h m⟩

/-- Settles O51: by `loadWords_append` what follows the body's words is loaded on its own, and there it lies past 0xFFFF
or is less than a word. -/
theorem imageEdgesAreDiscarded : Obligations.ImageEdgesAreDiscarded := by
  refine ⟨fun o ws extra m h => ?_, fun o ws b m => ?_, fun _ m h => loadImage_short h m⟩
  · rw [loadImage_imageBytes, loadImage_imageBytes, List.flatMap_append, loadWords_append, h]
    exact loadWords_past (by decide) _ _
  · rw [loadImage_imageBytes_append, loadImage_imageBytes, loadWords_append]
    exact loadWords_short (bs := [b]) _ Nat.one_lt_two _

/-! ### Several images, and the boot (70_reset_and_hazards.md R132, R135, R136) -/

/-- Memory after the bytes of some images were written in order. -/
def loadImages (images : List ImageSource) (m : Memory) : Memory := images.foldl (fun m i => loadImage i.bytes m) m

theorem loadImages_wf {m : Memory} (images : List ImageSource) (hm : m.wf = true) :
    (loadImages images m).wf = true := by
  induction images generalizing m with
  | nil => exact hm
  | cons i images ih => exact ih (loadImage_wf i.bytes hm)

/-- Readable images are written, and the preload goes on with the rest. -/
theorem preloadAll_append {before : List ImageSource} (h : ∀ i ∈ before, i.readable = true) (rest : List ImageSource)
    (s : State) : preloadAll (before ++ rest) s = preloadAll rest { s with mem := loadImages before s.mem } := by
  induction before generalizing s with
  | nil => rfl
  | cons i before ih =>
    obtain ⟨hread, hbefore⟩ := List.forall_mem_cons.1 h
    rw [List.cons_append, preloadAll, if_pos hread, ih hbefore]
    rfl

theorem boot_of_readable (p : Params) {images : List ImageSource} (h : ∀ i ∈ images, i.readable = true) :
    boot p images = .started { State.resetWith p with mem := loadImages images [] } := by
  have hall := preloadAll_append h [] (State.resetWith p)
  rw [List.append_nil] at hall
  rw [boot, hall]
  rfl

theorem boot_of_unreadable (p : Params) {before : List ImageSource} {bad : ImageSource} (after : List ImageSource)
    (h : ∀ i ∈ before, i.readable = true) (hbad : bad.readable = false) :
    boot p (before ++ bad :: after) =
      .neverStarted { State.resetWith p with mem := loadImages (before ++ [bad]) [] } := by
  have hmem : loadImages (before ++ [bad]) [] = loadImage bad.bytes (loadImages before []) :=
    List.foldl_concat ..
  rw [boot, preloadAll_append h, preloadAll, if_neg (by simp [hbad]), hmem]
  rfl

/-- Settles O52: the later image is loaded over the memory the earlier one left, so it reads back whole and keeps the
earlier one's words outside itself. -/
theorem laterImagesOverwriteEarlierOnes : Obligations.LaterImagesOverwriteEarlierOnes := by
  intro p o1 o2 ws1 ws2
  obtain ⟨hwf1, hread1, -⟩ := loadedImagesReadBack o1 ws1 [] rfl
  obtain ⟨-, hread2, hkeep2⟩ := loadedImagesReadBack o2 ws2 _ hwf1
  exact ⟨_, boot_of_readable p (by simp), hread2, fun k hk ha hout => (hkeep2 _ hout).trans (hread1 k hk ha)⟩

/-- Settles O53: `boot_of_readable` and `boot_of_unreadable` give the state that the boot ends in. -/
theorem bootStartsExactlyWhenEveryImageLoads : Obligations.BootStartsExactlyWhenEveryImageLoads :=
  ⟨fun p images h => ⟨_, boot_of_readable p h, rfl, loadImages_wf images rfl, rfl⟩,
    fun p _ _ after h hbad => ⟨_, boot_of_unreadable p after h hbad, rfl, rfl⟩⟩

end Sys2Proof.Machine
